-- ==== Sys2Proof/Word.lean ====
section
/-! DEFINITION. The widths of spec/00_scope.md R8: byte, sextet, group, payload, command word and response word. -/

namespace Sys2Proof

/-- `W_BYTE` and `W_CODE` (R8): a data byte or a symbol code on the ports. -/
abbrev Byte := BitVec 8

/-- `W_SEXTET` (R8): an alphabet index. -/
abbrev Sextet := BitVec 6

/-- The 24-bit value of an encoder or decoder group (R27, R29). -/
abbrev Group := BitVec 24

/-- The four 8-bit lanes of a command payload `P` or of response data `D` (R30). -/
abbrev Payload := BitVec 32

/-- `CMD_W` (R8): the command word `cmd` (R38). -/
abbrev CmdWord := BitVec 40

/-- `RSP_W` (R8): the response word `rsp` (R43). -/
abbrev RspWord := BitVec 40

end Sys2Proof
end

