-- ==== Sys2Proof/Syntax.lean ====
section
/-! DEFINITION. The commands: one constructor per row of spec/opcode_table.json. -/

namespace Sys2Proof

/-- A command (R40), its fields in the order the word holds them, most significant first. The payload bits a command
ignores (R42, R46) are fields too, named `ign…`, so that decoding drops no bit of the word; no meaning reads them. -/
inductive Instr where
  /-- NOP (R66): the payload is ignored. -/
  | nop (ign : Payload)
  /-- ENC3 (R53): encode a complete group of three bytes. -/
  | enc3 (ign b0 b1 b2 : Byte)
  /-- ENC2 (R54): encode a final partial group of two bytes. -/
  | enc2 (ignHi b0 b1 ignLo : Byte)
  /-- ENC1 (R55): encode a final partial group of one byte. -/
  | enc1 (ignHi b0 : Byte) (ignLo : BitVec 16)
  /-- DEC (R61): decode a non-final group of four symbols. -/
  | dec (c0 c1 c2 c3 : Byte)
  /-- DECF (R62): close a decode message with its final `n` symbols; the codes from `c<n>` on are ignored. -/
  | decf (n : Nat) (c0 c1 c2 c3 : Byte)
  /-- Every other word (R67), with its own `op`, `aux` and payload. -/
  | illegal (op aux : BitVec 4) (ign : Payload)
deriving DecidableEq, Repr

end Sys2Proof
end

