-- ==== Sys2Proof/WellFormed.lean ====
section
/-! DEFINITION. Which terms of `Instr` are commands of the port (spec/30_encoding.md R41). -/

namespace Sys2Proof

/-- The combinations of `op` and `aux` that R41 lists as illegal: `op` 0x0 to 0x4 with `aux` not 0, `op` 0x5 with `aux`
5 to 15, and every `op` from 0x6 on. -/
def illegalFields (op aux : BitVec 4) : Bool :=
  (op.toNat ≤ 4 && aux.toNat != 0) || (op.toNat == 5 && 5 ≤ aux.toNat) || 6 ≤ op.toNat

/-- A term is a command when its count is one DECF can carry (R41: `aux` 0 to 4) and when, for `illegal`, its fields are
illegal ones; every other field holds exactly the bits its type has. -/
def Instr.wellFormed : Instr → Bool
  | .nop _ => true
  | .enc3 _ _ _ _ => true
  | .enc2 _ _ _ _ => true
  | .enc1 _ _ _ => true
  | .dec _ _ _ _ => true
  | .decf n _ _ _ _ => decide (n ≤ 4)
  | .illegal op aux _ => illegalFields op aux

end Sys2Proof
end

