-- ==== Sys2Proof/Decode.lean ====
section
/-! DEFINITION. From a command word to a command and back (spec/30_encoding.md R38 to R42). -/

namespace Sys2Proof

/-- `op = cmd[39:36]` (R38). -/
def cmdOp (w : CmdWord) : BitVec 4 := w.extractLsb' 36 4

/-- `aux = cmd[35:32]` (R38). -/
def cmdAux (w : CmdWord) : BitVec 4 := w.extractLsb' 32 4

/-- `P = cmd[31:0]` (R38). -/
def cmdPayload (w : CmdWord) : Payload := w.extractLsb' 0 32

/-- `P[31:24]` (R30). -/
def lane3 (p : Payload) : Byte := p.extractLsb' 24 8

/-- `P[23:16]` (R30). -/
def lane2 (p : Payload) : Byte := p.extractLsb' 16 8

/-- `P[15:8]` (R30). -/
def lane1 (p : Payload) : Byte := p.extractLsb' 8 8

/-- `P[7:0]` (R30). -/
def lane0 (p : Payload) : Byte := p.extractLsb' 0 8

/-- `legal(op, aux)` of R23. -/
def legal (op aux : BitVec 4) : Bool :=
  (decide (op ≤ 0x4#4) && aux == 0#4) || (op == 0x5#4 && decide (aux ≤ 4#4))

/-- The command of a legal `op` (R40); the operands as R42 assembles them. Values of `op` from 0x6 on are not legal and
stay with the illegal command. -/
def decodeLegal (op aux : BitVec 4) (p : Payload) : Instr :=
  match op.toNat with
  | 0 => .nop p
  | 1 => .enc3 (lane3 p) (lane2 p) (lane1 p) (lane0 p)
  | 2 => .enc2 (lane3 p) (lane2 p) (lane1 p) (lane0 p)
  | 3 => .enc1 (lane3 p) (lane2 p) (p.extractLsb' 0 16)
  | 4 => .dec (lane3 p) (lane2 p) (lane1 p) (lane0 p)
  | 5 => .decf aux.toNat (lane3 p) (lane2 p) (lane1 p) (lane0 p)
  | _ => .illegal op aux p

/-- The command of a 40-bit word. It is total: a word that `legal` fails is the illegal command, by name (R41, R67). -/
def decode (w : CmdWord) : Instr :=
  if legal (cmdOp w) (cmdAux w) then decodeLegal (cmdOp w) (cmdAux w) (cmdPayload w)
  else .illegal (cmdOp w) (cmdAux w) (cmdPayload w)

/-- Why bits offered as a command are none: the one length is 40 bits (R39). -/
inductive DecodeReject where
  /-- There are more than 40 bits, or a bit set above the given length; the port has no pin for it. -/
  | widerThanCommandWord
deriving DecidableEq, Repr

/-- The command in `nbits` bits numbered from the least significant; the bits above `nbits`, up to 40, are 0. -/
def decodeBits (nbits w : Nat) : Except DecodeReject Instr :=
  if nbits ≤ 40 ∧ w < 2 ^ nbits then .ok (decode (BitVec.ofNat 40 w)) else .error .widerThanCommandWord

/-- The host's reading of a row of the opcode table. The rows are one 40-bit word each, so bit 0 is `cmd[0]`. -/
def decodeTableWord (nbits w : Nat) : Option Instr := (decodeBits nbits w).toOption

/-- `cmd = op << 36 | aux << 32 | P` (R38). -/
def cmdWord (op aux : BitVec 4) (p : Payload) : CmdWord := op ++ aux ++ p

/-- Four lanes, the first in `P[31:24]` (R30). -/
def payloadOf (l3 l2 l1 l0 : Byte) : Payload := l3 ++ l2 ++ l1 ++ l0

/-- The word of a command (R38, R40, R49). -/
def encode : Instr → CmdWord
  | .nop p => cmdWord 0x0#4 0#4 p
  | .enc3 ign b0 b1 b2 => cmdWord 0x1#4 0#4 (payloadOf ign b0 b1 b2)
  | .enc2 ignHi b0 b1 ignLo => cmdWord 0x2#4 0#4 (payloadOf ignHi b0 b1 ignLo)
  | .enc1 ignHi b0 ignLo => cmdWord 0x3#4 0#4 (ignHi ++ b0 ++ ignLo)
  | .dec c0 c1 c2 c3 => cmdWord 0x4#4 0#4 (payloadOf c0 c1 c2 c3)
  | .decf n c0 c1 c2 c3 => cmdWord 0x5#4 (BitVec.ofNat 4 n) (payloadOf c0 c1 c2 c3)
  | .illegal op aux p => cmdWord op aux p

end Sys2Proof
end

