-- ==== Sys2Proof/Machine/Types.lean ====
section
/-! DEFINITION. The data the datapath passes around: statuses, responses, code classes, sextets, results, edge actions. -/

namespace Sys2Proof.Machine

/-- The status `st` of a response (R44). -/
inductive Status where
  /-- No error; for a DECF, the decode message succeeded. -/
  | ok
  /-- The decode message's length is not a multiple of 4. -/
  | invalidLength
  /-- The decode message holds a code outside the alphabet, or a misplaced pad. -/
  | invalidSymbol
  /-- The command word is illegal. -/
  | illegalCmd
deriving DecidableEq, Repr

/-- A response before it is packed into its word: `{st, last, cnt, D}` (R43). -/
structure Rsp where
  st : Status
  last : Bool
  cnt : Nat
  data : Payload
deriving DecidableEq, Repr

/-- The value of `CLASS(c)` (R58). -/
inductive CodeClass where
  /-- `SYM(i)`: the code of the alphabet symbol with index `i`. -/
  | sym (i : Sextet)
  /-- `PAD`: the code of `=`. -/
  | pad
  /-- `BAD`: any other code. -/
  | bad
deriving DecidableEq, Repr

/-- The four fields `x0` to `x3` of a group, most significant first (R51). -/
structure Sextets where
  x0 : Sextet
  x1 : Sextet
  x2 : Sextet
  x3 : Sextet
deriving DecidableEq, Repr

/-- What a command answers (R23): its response word, or none, and the new `dec_err`. -/
structure CmdResult where
  rsp : Option RspWord
  decErr : Bool
deriving DecidableEq, Repr

/-- What the block does at a rising edge (R94). -/
inductive EdgeAction where
  /-- `rst = 1`. -/
  | reset
  /-- A command is accepted. -/
  | accept (cmd : CmdWord)
  /-- Nothing is accepted. -/
  | hold
deriving DecidableEq, Repr

/-- The error of a whole decode message (R69, R78). -/
inductive MsgError where
  /-- `InvalidLength`. -/
  | invalidLength
  /-- `InvalidSymbol`. -/
  | invalidSymbol
deriving DecidableEq, Repr

end Sys2Proof.Machine
end

