-- ==== Sys2Proof/Machine/Flags.lean ====
section
/-! DEFINITION. The one flag, `dec_err`: its value after each command (spec/10_state.md R14). -/

namespace Sys2Proof.Machine

/-- ENC3, ENC2, ENC1, NOP and every illegal command leave it unchanged (R14, R56, R66, R67). -/
def decErrKept (decErr : Bool) : Bool := decErr

/-- DEC sets it when its group is not four alphabet symbols, and otherwise leaves it (R14, R61). -/
def decErrAfterDec (decErr groupOk : Bool) : Bool := decErr || !groupOk

/-- Every legal DECF clears it (R14, R62). -/
def decErrAfterDecf : Bool := false

end Sys2Proof.Machine
end

