-- ==== Sys2Proof/Machine/Operands.lean ====
section
/-! DEFINITION. How operands are assembled (spec/30_encoding.md R42; spec/20_memory.md R27, R28, R29). -/

namespace Sys2Proof.Machine

/-- ENC3: `v = b0 ‖ b1 ‖ b2`, the first byte most significant (R27, R42). -/
def enc3Value (b0 b1 b2 : Byte) : Group := b0 ++ b1 ++ b2

/-- ENC2: `v = P[23:8] ‖ 0x00` (R42). -/
def enc2Value (b0 b1 : Byte) : Group := b0 ++ b1 ++ 0x00#8

/-- ENC1: `v = P[23:16] ‖ 0x0000` (R42). -/
def enc1Value (b0 : Byte) : Group := b0 ++ 0x0000#16

/-- The shifter tree: `x0 = v[23:18]`, `x1 = v[17:12]`, `x2 = v[11:6]`, `x3 = v[5:0]` (R28, R51). -/
def split (v : Group) : Sextets :=
  { x0 := v.extractLsb' 18 6, x1 := v.extractLsb' 12 6, x2 := v.extractLsb' 6 6, x3 := v.extractLsb' 0 6 }

/-- The unpacker: `i0 ‖ i1 ‖ i2 ‖ i3`, the first index most significant (R29, R59). -/
def unpack (i0 i1 i2 i3 : Sextet) : Group := i0 ++ i1 ++ i2 ++ i3

/-- `[v[23:16], v[15:8], v[7:0]]`: the bytes of a decoded group, most significant first (R59). -/
def groupBytes (v : Group) : List Byte := [v.extractLsb' 16 8, v.extractLsb' 8 8, v.extractLsb' 0 8]

/-- `zext_32(v)` (R9): the bytes of a group in lanes 2 to 0 of the response data, lane 3 zero (R30). -/
def zext32 (v : Group) : Payload := 0x00#8 ++ v

/-- Four symbol codes in lanes 3 to 0 of the response data (R30). -/
def symbolData (s0 s1 s2 s3 : Byte) : Payload := s0 ++ s1 ++ s2 ++ s3

/-- `M(keep)`: the lanes of the kept bytes (R62). No count but 3, 2 and 1 is used. -/
def keepMask (keep : Nat) : Payload :=
  match keep with
  | 3 => 0x00FFFFFF#32
  | 2 => 0x00FFFF00#32
  | 1 => 0x00FF0000#32
  | _ => 0x00000000#32

end Sys2Proof.Machine
end

