-- ==== Sys2Proof/Machine/State.lean ====
section
/-! DEFINITION. The state of one `base64_codec` (spec/10_state.md R13) with the input pins still to come, and its reset. -/

namespace Sys2Proof.Machine

/-- What the host drives on the input ports of R24 at one rising edge of `clk`. -/
structure Pins where
  /-- `rst`: synchronous reset, active high. -/
  rst : Bool
  /-- `cmd_valid`: a command is presented. -/
  cmdValid : Bool
  /-- `cmd`: the command word. -/
  cmd : CmdWord
  /-- `rsp_ready`: the host takes the response. -/
  rspReady : Bool
deriving DecidableEq, Repr

/-- The whole state. The first three fields are the spec's (R13: "exactly the following, and nothing else"); `inputs` is
the model's own (DESIGN CHOICE, log entry 1). -/
structure State where
  /-- `dec_err` (R14). -/
  decErr : Bool
  /-- `rsp_valid` (R22). -/
  rspValid : Bool
  /-- `rsp_q` (R22). -/
  rspQ : RspWord
  /-- The input pins at the coming rising edges, the next edge first. -/
  inputs : List Pins
deriving DecidableEq, Repr

/-- The block has no trap, so no step faults (R80: every error is a status in a response). There is no constructor. -/
inductive Fault where
deriving DecidableEq, Repr

/-- Why a command has no meaning in the model. -/
inductive Refusal where
  /-- Raised by an arm of `exec` whose command has no meaning yet; no arm raises it now. Safe: the model stops. -/
  | notModelled (mnemonic : String)
deriving DecidableEq, Repr

/-- The state after reset (R26): every element of R13 is 0. No stimulus is placed (log entry 3). -/
def State.reset : State :=
  { decErr := false, rspValid := false, rspQ := 0#40, inputs := [] }

end Sys2Proof.Machine
end

