-- ==== Sys2Proof/Machine/Ops.lean ====
section
/-! DEFINITION. The operations the commands share: the alphabet, the lookup, the padding validator, the response word and
its register, and what an edge of the clock does. The block takes no exception and returns from none (R80, R81): an
error's whole effect is its response and the `dec_err` of its command, so `State.complete` below is all there is. -/

namespace Sys2Proof.Machine

/-- Indices 0 to 15 of the table of R47: `A` to `P`. -/
def alphabetFrom0 : List Byte :=
  [0x41#8, 0x42#8, 0x43#8, 0x44#8, 0x45#8, 0x46#8, 0x47#8, 0x48#8,
   0x49#8, 0x4A#8, 0x4B#8, 0x4C#8, 0x4D#8, 0x4E#8, 0x4F#8, 0x50#8]

/-- Indices 16 to 31: `Q` to `Z`, `a` to `f`. -/
def alphabetFrom16 : List Byte :=
  [0x51#8, 0x52#8, 0x53#8, 0x54#8, 0x55#8, 0x56#8, 0x57#8, 0x58#8,
   0x59#8, 0x5A#8, 0x61#8, 0x62#8, 0x63#8, 0x64#8, 0x65#8, 0x66#8]

/-- Indices 32 to 47: `g` to `v`. -/
def alphabetFrom32 : List Byte :=
  [0x67#8, 0x68#8, 0x69#8, 0x6A#8, 0x6B#8, 0x6C#8, 0x6D#8, 0x6E#8,
   0x6F#8, 0x70#8, 0x71#8, 0x72#8, 0x73#8, 0x74#8, 0x75#8, 0x76#8]

/-- Indices 48 to 63: `w` to `z`, `0` to `9`, `+`, `/`. -/
def alphabetFrom48 : List Byte :=
  [0x77#8, 0x78#8, 0x79#8, 0x7A#8, 0x30#8, 0x31#8, 0x32#8, 0x33#8,
   0x34#8, 0x35#8, 0x36#8, 0x37#8, 0x38#8, 0x39#8, 0x2B#8, 0x2F#8]

/-- The alphabet ROM: 64 entries of 8 bits, entry `i` the code of the symbol with index `i` (R21, R47). -/
def alphabetRom : List Byte := alphabetFrom0 ++ alphabetFrom16 ++ alphabetFrom32 ++ alphabetFrom48

theorem alphabetRom_length : alphabetRom.length = 64 := rfl

/-- `ALPHA(i)`: the ROM read (R11, R47). Every index is in the ROM. -/
def alpha (i : Sextet) : Byte := alphabetRom[i.toNat]'(by rw [alphabetRom_length]; exact i.isLt)

/-- `PADC`, the code of `=` (R48). -/
def padCode : Byte := 0x3D#8

/-- `CLASS(c)`: the decoder's lookup (R58). -/
def classify (c : Byte) : CodeClass :=
  if 0x41#8 ≤ c ∧ c ≤ 0x5A#8 then .sym ((c - 0x41#8).setWidth 6)
  else if 0x61#8 ≤ c ∧ c ≤ 0x7A#8 then .sym ((c - 0x47#8).setWidth 6)
  else if 0x30#8 ≤ c ∧ c ≤ 0x39#8 then .sym ((c + 0x04#8).setWidth 6)
  else if c = 0x2B#8 then .sym 62#6
  else if c = 0x2F#8 then .sym 63#6
  else if c = padCode then .pad
  else .bad

/-- The class is `SYM`. -/
def CodeClass.isSym : CodeClass → Bool
  | .sym _ => true
  | .pad => false
  | .bad => false

/-- `idx'`: the index that enters the unpacker; a pad enters as 0 (R59, R62). A `BAD` code never reaches the unpacker
(`padValid_not_bad` in Laws/Ops.lean), so its arm is filler that no result depends on (log entry 5). -/
def CodeClass.index : CodeClass → Sextet
  | .sym i => i
  | .pad => 0#6
  | .bad => 0#6

/-- `pad_valid`: the pad count of a valid final group, none for an invalid one (R60). -/
def padValid (k0 k1 k2 k3 : CodeClass) : Option Nat :=
  match k0, k1, k2, k3 with
  | .sym _, .sym _, .sym _, .sym _ => some 0
  | .sym _, .sym _, .sym _, .pad => some 1
  | .sym _, .sym _, .pad, .pad => some 2
  | _, _, _, _ => none

/-- The code of a status (R44). -/
def Status.code : Status → BitVec 2
  | .ok => 0#2
  | .invalidLength => 1#2
  | .invalidSymbol => 2#2
  | .illegalCmd => 3#2

/-- The response word: `st ‖ last ‖ cnt ‖ 00 ‖ D` (R43). -/
def Rsp.word (r : Rsp) : RspWord :=
  r.st.code ++ BitVec.ofBool r.last ++ BitVec.ofNat 3 r.cnt ++ 0#2 ++ r.data

/-- `rsp[39:38]` (R43). -/
def rspSt (w : RspWord) : BitVec 2 := w.extractLsb' 38 2

/-- `rsp[37]` (R43). -/
def rspLast (w : RspWord) : Bool := w.getLsbD 37

/-- `rsp[36:34]` (R43). -/
def rspCnt (w : RspWord) : Nat := (w.extractLsb' 34 3).toNat

/-- `rsp[31:0]` (R43). -/
def rspData (w : RspWord) : Payload := w.extractLsb' 0 32

/-- `respond {st, last, cnt, D}` with the new `dec_err` (R12, R43). -/
def respond (r : Rsp) (decErr : Bool) : CmdResult := { rsp := some r.word, decErr := decErr }

/-- `no_response` with the new `dec_err` (R11, R66). -/
def noResponse (decErr : Bool) : CmdResult := { rsp := none, decErr := decErr }

/-- A response of an encoder command: `OK`, not last, four codes (R45). -/
def encoderRsp (s0 s1 s2 s3 : Byte) : Rsp := { st := .ok, last := false, cnt := 4, data := symbolData s0 s1 s2 s3 }

/-- A response without data. -/
def emptyRsp (st : Status) (last : Bool) : Rsp := { st := st, last := last, cnt := 0, data := 0#32 }

/-- What an accepted command writes, all at one edge (R16, R94): the new `dec_err`, and the response register when there
is a response; without one the register is untouched (R66). -/
def State.complete (s : State) (r : CmdResult) : State :=
  match r.rsp with
  | some w => { s with decErr := r.decErr, rspValid := true, rspQ := w }
  | none => { s with decErr := r.decErr }

/-- The input pins past the end of the list of stimuli: nothing is driven (DESIGN CHOICE, log entry 2). -/
def Pins.idle : Pins := { rst := false, cmdValid := false, cmd := 0#40, rspReady := false }

/-- The pins at the next rising edge. -/
def State.pins (s : State) : Pins := s.inputs.headD Pins.idle

/-- The pins of this edge are used up. -/
def State.dropPins (s : State) : State := { s with inputs := s.inputs.tail }

/-- `cmd_ready = (rst == 0) and (rsp_valid == 0 or rsp_ready == 1)` (R93), a combinational output. -/
def State.cmdReady (s : State) (p : Pins) : Bool := !p.rst && (!s.rspValid || p.rspReady)

/-- The output ports of R24 under the pins `p`: `cmd_ready`, `rsp_valid` and `rsp` (R22, R93). -/
def State.outputs (s : State) (p : Pins) : Bool × Bool × RspWord := (s.cmdReady p, s.rspValid, s.rspQ)

/-- What the block does at an edge with the pins `p`: reset, acceptance of a command, or neither (R93, R94). -/
def State.edgeAction (s : State) (p : Pins) : EdgeAction :=
  if p.rst then .reset else if p.cmdValid && s.cmdReady p then .accept p.cmd else .hold

/-- The host takes a waiting response: `rsp_valid` falls, `rsp_q` holds (R22, R94). -/
def State.takeResponse (s : State) (rspReady : Bool) : State := { s with rspValid := s.rspValid && !rspReady }

/-- A reset edge: every state element of R13 to 0; a waiting response is lost (R91). -/
def State.resetRegs (s : State) : State := { s with decErr := false, rspValid := false, rspQ := 0#40 }

/-- The pins that present one command word to a block that may hold a response: the command is valid, the host takes
what waits, reset is off. -/
def Pins.present (cmd : CmdWord) : Pins := { rst := false, cmdValid := true, cmd := cmd, rspReady := true }

end Sys2Proof.Machine
end

