-- ==== Sys2Proof/Machine/Control.lean ====
section
/-! DEFINITION. NOP and the illegal command (spec/42_control.md R66, R67). -/

namespace Sys2Proof.Machine

/-- NOP's answer (R66). -/
def nopResult (decErr : Bool) : CmdResult := noResponse (decErrKept decErr)

/-- An illegal word's answer (R67). -/
def illegalResult (decErr : Bool) : CmdResult := respond (emptyRsp .illegalCmd false) (decErrKept decErr)

/-- NOP (R66): no response, no state change, whatever the payload. -/
def execNop (_ign : Payload) (s : State) : Host.Outcome State Fault Refusal :=
  .next (s.complete (nopResult s.decErr))

/-- Illegal command (R67): the response ILLEGAL_CMD and no state change, whatever its bits. -/
def execIllegal (_op _aux : BitVec 4) (_ign : Payload) (s : State) : Host.Outcome State Fault Refusal :=
  .next (s.complete (illegalResult s.decErr))

end Sys2Proof.Machine
end

