-- ==== Sys2Proof/Machine/Decoder.lean ====
section
/-! DEFINITION. base64_decoder: DEC and DECF (spec/41_decoder.md R61, R62). -/

namespace Sys2Proof.Machine

/-- DEC's answer (R61): three bytes when no error is pending and the group is four alphabet symbols, else none. -/
def decResult (c0 c1 c2 c3 : Byte) (decErr : Bool) : CmdResult :=
  let k0 := classify c0
  let k1 := classify c1
  let k2 := classify c2
  let k3 := classify c3
  let groupOk := k0.isSym && k1.isSym && k2.isSym && k3.isSym
  if !decErr && groupOk then
    respond { st := .ok, last := false, cnt := 3, data := zext32 (unpack k0.index k1.index k2.index k3.index) }
      (decErrAfterDec decErr groupOk)
  else respond (emptyRsp .ok false) (decErrAfterDec decErr groupOk)

/-- DECF's answer for `n = 4` (R62): the final group. -/
def finalGroupResult (c0 c1 c2 c3 : Byte) (decErr : Bool) : CmdResult :=
  let k0 := classify c0
  let k1 := classify c1
  let k2 := classify c2
  let k3 := classify c3
  match padValid k0 k1 k2 k3, decErr with
  | some p, false =>
    let keep := 3 - p
    respond { st := .ok, last := true, cnt := keep,
              data := zext32 (unpack k0.index k1.index k2.index k3.index) &&& keepMask keep } decErrAfterDecf
  | _, _ => respond (emptyRsp .invalidSymbol true) decErrAfterDecf

/-- DECF's answer (R62). `n = 0` reports the pending error, `n` 1 to 3 the length error without looking at anything,
`n = 4` judges the final group. A count above 4 is no DECF: R62 sends it to the illegal command (R67). -/
def decfResult (n : Nat) (c0 c1 c2 c3 : Byte) (decErr : Bool) : CmdResult :=
  match n with
  | 0 => respond (emptyRsp (if decErr then .invalidSymbol else .ok) true) decErrAfterDecf
  | 1 => respond (emptyRsp .invalidLength true) decErrAfterDecf
  | 2 => respond (emptyRsp .invalidLength true) decErrAfterDecf
  | 3 => respond (emptyRsp .invalidLength true) decErrAfterDecf
  | 4 => finalGroupResult c0 c1 c2 c3 decErr
  | _ => illegalResult decErr

/-- DEC (R61). -/
def execDec (c0 c1 c2 c3 : Byte) (s : State) : Host.Outcome State Fault Refusal :=
  .next (s.complete (decResult c0 c1 c2 c3 s.decErr))

/-- DECF (R62). -/
def execDecf (n : Nat) (c0 c1 c2 c3 : Byte) (s : State) : Host.Outcome State Fault Refusal :=
  .next (s.complete (decfResult n c0 c1 c2 c3 s.decErr))

end Sys2Proof.Machine
end

