-- ==== Sys2Proof/Machine/Encoder.lean ====
section
/-! DEFINITION. base64_encoder: ENC3, ENC2 and ENC1 (spec/40_encoder.md R53, R54, R55). -/

namespace Sys2Proof.Machine

/-- ENC3's answer (R53): the four symbols of `b0 ‖ b1 ‖ b2`. -/
def enc3Result (b0 b1 b2 : Byte) (decErr : Bool) : CmdResult :=
  let x := split (enc3Value b0 b1 b2)
  respond (encoderRsp (alpha x.x0) (alpha x.x1) (alpha x.x2) (alpha x.x3)) (decErrKept decErr)

/-- ENC2's answer (R54): three symbols of `b0 ‖ b1 ‖ 0` and one pad. -/
def enc2Result (b0 b1 : Byte) (decErr : Bool) : CmdResult :=
  let x := split (enc2Value b0 b1)
  respond (encoderRsp (alpha x.x0) (alpha x.x1) (alpha x.x2) padCode) (decErrKept decErr)

/-- ENC1's answer (R55): two symbols of `b0 ‖ 0 ‖ 0` and two pads. -/
def enc1Result (b0 : Byte) (decErr : Bool) : CmdResult :=
  let x := split (enc1Value b0)
  respond (encoderRsp (alpha x.x0) (alpha x.x1) padCode padCode) (decErrKept decErr)

/-- ENC3 (R53). `P[31:24]` has no effect. -/
def execEnc3 (_ign b0 b1 b2 : Byte) (s : State) : Host.Outcome State Fault Refusal :=
  .next (s.complete (enc3Result b0 b1 b2 s.decErr))

/-- ENC2 (R54). `P[31:24]` and `P[7:0]` have no effect. -/
def execEnc2 (_ignHi b0 b1 _ignLo : Byte) (s : State) : Host.Outcome State Fault Refusal :=
  .next (s.complete (enc2Result b0 b1 s.decErr))

/-- ENC1 (R55). `P[31:24]` and `P[15:0]` have no effect. -/
def execEnc1 (_ignHi b0 : Byte) (_ignLo : BitVec 16) (s : State) : Host.Outcome State Fault Refusal :=
  .next (s.complete (enc1Result b0 s.decErr))

end Sys2Proof.Machine
end

