-- ==== Sys2Proof/Machine/Dispatch.lean ====
section
/-! DEFINITION. One arm per command. -/

namespace Sys2Proof.Machine

/-- The effect of an accepted command on the state (R23), one meaning for each row of the opcode table. The response
register is free or taken at the accepting edge, and `step` has taken it before (R94). -/
def exec (i : Instr) (s : State) : Host.Outcome State Fault Refusal :=
  match i with
  | .nop ign => Sys2Proof.Machine.execNop ign s
  | .enc3 ign b0 b1 b2 => Sys2Proof.Machine.execEnc3 ign b0 b1 b2 s
  | .enc2 ignHi b0 b1 ignLo => Sys2Proof.Machine.execEnc2 ignHi b0 b1 ignLo s
  | .enc1 ignHi b0 ignLo => Sys2Proof.Machine.execEnc1 ignHi b0 ignLo s
  | .dec c0 c1 c2 c3 => Sys2Proof.Machine.execDec c0 c1 c2 c3 s
  | .decf n c0 c1 c2 c3 => Sys2Proof.Machine.execDecf n c0 c1 c2 c3 s
  | .illegal op aux ign => Sys2Proof.Machine.execIllegal op aux ign s

end Sys2Proof.Machine
end

