-- ==== Sys2Proof/Machine/Step.lean ====
section
/-! DEFINITION. One rising edge of `clk` (spec/70_reset_and_hazards.md R94), and how the host places a command. -/

namespace Sys2Proof.Machine

/-- One rising edge: reset, or the response is taken and an accepted command runs, or only the taking. The command sees
the state before it (R16); a response it loads replaces the one taken at the same edge (R22, R94). -/
def step (s : State) : Host.Outcome State Fault Refusal :=
  match s.edgeAction s.pins with
  | .reset => .next s.dropPins.resetRegs
  | .accept cmd => exec (decode cmd) (s.dropPins.takeResponse s.pins.rspReady)
  | .hold => .next (s.dropPins.takeResponse s.pins.rspReady)

/-- The block fetches nothing (R18): the next command is the one on `cmd` at the next edge. This places, before the edges
already in `inputs`, one edge that presents the word (log entry 3). -/
def State.withFetchWord (s : State) (nbits w : Nat) : State :=
  { s with inputs := Pins.present (BitVec.ofNat 40 (w % 2 ^ nbits)) :: s.inputs }

end Sys2Proof.Machine
end

