-- ==== Sys2Proof/Config.lean ====
section
/-! DEFINITION. What an implementation fixes and no functional rule reads: `LAT` and `B64_BASE` (spec/00_scope.md R8). -/

namespace Sys2Proof

/-- `LAT`: clock edges from the acceptance of a command to its response being valid (R8, R95). -/
def Config.lat : Nat := 1

/-- `B64_BASE`: the bus address of the ports where an integration maps them. The spec leaves it OPEN and no rule reads
it (R37, 93 S9), so it has no value here. -/
opaque Config.b64Base : Nat

end Sys2Proof
end

