-- ==== Sys2Proof/Machine/Message.lean ====
section
/-! DEFINITION. Whole messages: `Encode` and `Decode`, the framing of a message into commands, and what the host reads from
the responses (spec/43_message.md R68 to R73, spec/30_encoding.md R49, R50). -/

namespace Sys2Proof.Machine

/-- `Encode(b)` (R68): the symbols of the complete groups in order, then the partial group with its pads. -/
def encodeMsg : List Byte → List Byte
  | b0 :: b1 :: b2 :: rest =>
    let x := split (enc3Value b0 b1 b2)
    alpha x.x0 :: alpha x.x1 :: alpha x.x2 :: alpha x.x3 :: encodeMsg rest
  | [b0, b1] =>
    let x := split (enc2Value b0 b1)
    [alpha x.x0, alpha x.x1, alpha x.x2, padCode]
  | [b0] =>
    let x := split (enc1Value b0)
    [alpha x.x0, alpha x.x1, padCode, padCode]
  | [] => []

/-- The bytes of the groups of a sequence of classes, in order, pads as index 0 (R69, the last loop). -/
def classBytes : List CodeClass → List Byte
  | k0 :: k1 :: k2 :: k3 :: rest =>
    groupBytes (unpack k0.index k1.index k2.index k3.index) ++ classBytes rest
  | _ => []

/-- `pad_valid` of the last four classes (R60, R69). -/
def padValidLast (final : List CodeClass) : Option Nat :=
  match final with
  | [k0, k1, k2, k3] => padValid k0 k1 k2 k3
  | _ => none

/-- `Decode(t)` (R69): length first, then the non-final groups, then the final group; last the bytes of pads dropped. -/
def decodeMsg (t : List Byte) : Except MsgError (List Byte) :=
  if t.length % 4 ≠ 0 then .error .invalidLength
  else if t.length = 0 then .ok []
  else
    let k := t.map classify
    if !(k.take (t.length - 4)).all CodeClass.isSym then .error .invalidSymbol
    else
      match padValidLast (k.drop (t.length - 4)) with
      | none => .error .invalidSymbol
      | some p => .ok ((classBytes k).take ((classBytes k).length - p))

/-- `NOP` in assembler syntax: unused lanes are encoded as 0 (R49); so for the forms below. -/
def asmNop : Instr := .nop 0#32

/-- `ENC3 b0, b1, b2` (R49). -/
def asmEnc3 (b0 b1 b2 : Byte) : Instr := .enc3 0#8 b0 b1 b2

/-- `ENC2 b0, b1` (R49). -/
def asmEnc2 (b0 b1 : Byte) : Instr := .enc2 0#8 b0 b1 0#8

/-- `ENC1 b0` (R49). -/
def asmEnc1 (b0 : Byte) : Instr := .enc1 0#8 b0 0#16

/-- `DEC c0, c1, c2, c3` (R49). -/
def asmDec (c0 c1 c2 c3 : Byte) : Instr := .dec c0 c1 c2 c3

/-- `DECF n, c0, …` with `n` the number of codes given (R49). -/
def asmDecf (cs : List Byte) : Instr :=
  .decf cs.length (cs.getD 0 0#8) (cs.getD 1 0#8) (cs.getD 2 0#8) (cs.getD 3 0#8)

/-- `EncFrame(b)` (R70), the expansion of `ENCODE` (R50). -/
def encFrame : List Byte → List Instr
  | b0 :: b1 :: b2 :: rest => asmEnc3 b0 b1 b2 :: encFrame rest
  | [b0, b1] => [asmEnc2 b0 b1]
  | [b0] => [asmEnc1 b0]
  | [] => []

/-- `DecFrame(t)` (R71), the expansion of `DECODE` (R50): a DEC for every group that more codes follow, and one DECF with
the last four codes, with the 1 to 3 left over, or with none for the empty message. -/
def decFrame : List Byte → List Instr
  | c0 :: c1 :: c2 :: c3 :: c4 :: rest => asmDec c0 c1 c2 c3 :: decFrame (c4 :: rest)
  | t => [asmDecf t]

/-- The four lanes of the data of a response, lane 3 first (R30). -/
def dataLanes (w : RspWord) : List Byte :=
  [lane3 (rspData w), lane2 (rspData w), lane1 (rspData w), lane0 (rspData w)]

/-- The symbols the host reads from encoder responses: the first `cnt` lanes from `s0` on, in response order (R31, R72). -/
def hostText (rs : List RspWord) : List Byte := rs.flatMap fun w => (dataLanes w).take (rspCnt w)

/-- The bytes the host reads from decoder responses: the first `cnt` lanes from `o0` on, in response order (R31, R73). -/
def hostBytes (rs : List RspWord) : List Byte := rs.flatMap fun w => ((dataLanes w).drop 1).take (rspCnt w)

/-- What the host concludes from the responses of one decode message: the status of the last one, which closes the
message, decides, and an error discards every byte (R65, R73, R82). None where no response closes the message. -/
def hostDecode (rs : List RspWord) : Option (Except MsgError (List Byte)) :=
  match rs.getLast? with
  | none => none
  | some f =>
    if rspLast f then
      match (rspSt f).toNat with
      | 0 => some (.ok (hostBytes rs))
      | 1 => some (.error .invalidLength)
      | 2 => some (.error .invalidSymbol)
      | _ => none
    else none

end Sys2Proof.Machine
end

