-- ==== Sys2Proof/Machine/Transaction.lean ====
section
/-! DEFINITION. The block at transaction level: the function `exec(cmd, dec_err)` of spec/10_state.md R23 on a command
word, and its application once per accepted command in acceptance order (spec/20_memory.md R34). -/

namespace Sys2Proof.Machine

/-- `exec(cmd, dec_err)` (R23), from the fields of the word. No legal word has an `op` above 0x5. -/
def execWord (cmd : CmdWord) (decErr : Bool) : CmdResult :=
  let op := cmdOp cmd
  let aux := cmdAux cmd
  let p := cmdPayload cmd
  if !legal op aux then illegalResult decErr
  else
    match op.toNat with
    | 0 => nopResult decErr
    | 1 => enc3Result (lane2 p) (lane1 p) (lane0 p) decErr
    | 2 => enc2Result (lane2 p) (lane1 p) decErr
    | 3 => enc1Result (lane2 p) decErr
    | 4 => decResult (lane3 p) (lane2 p) (lane1 p) (lane0 p) decErr
    | 5 => decfResult aux.toNat (lane3 p) (lane2 p) (lane1 p) (lane0 p) decErr
    | _ => illegalResult decErr

/-- The answers to a sequence of commands, one each, `none` where a command has no response. -/
def answers : List CmdWord → Bool → List (Option RspWord)
  | [], _ => []
  | c :: cs, e => (execWord c e).rsp :: answers cs (execWord c e).decErr

/-- `dec_err` after a sequence of commands. -/
def decErrAfter : List CmdWord → Bool → Bool
  | [], e => e
  | c :: cs, e => decErrAfter cs (execWord c e).decErr

/-- The responses to a sequence of commands, in order (R34). -/
def responses (cs : List CmdWord) (e : Bool) : List RspWord := (answers cs e).filterMap id

end Sys2Proof.Machine
end

