-- ==== Sys2Proof/Safety.lean ====
section
/-! DEFINITION. The terms claims are stated in: runs of edges and what passes the ports during one, the invariants of the
response register, the bits a command uses, and the spec's own shift-and-or formulas for the words. -/

namespace Sys2Proof.Machine

/-! ### Runs -/

/-- The next state, where there is one. -/
def nextState? : Host.Outcome State Fault Refusal → Option State
  | .next s => some s
  | .fault _ => none
  | .refused _ => none

/-- `k` rising edges, stopping where a step stops. -/
def runEdges : Nat → State → Host.Outcome State Fault Refusal
  | 0, s => .next s
  | k + 1, s =>
    match step s with
    | .next t => runEdges k t
    | .fault r => .fault r
    | .refused r => .refused r

/-- The command accepted at the next edge: exactly when `cmd_valid` and `cmd_ready` are 1 (R93). -/
def State.acceptedCmd (s : State) : List CmdWord :=
  if s.pins.cmdValid && s.cmdReady s.pins then [s.pins.cmd] else []

/-- The response the host takes at the next edge: `rsp_valid` and `rsp_ready` are 1 (R22). At a reset edge the response is
lost, not taken (R91; DEDUCED, log entry 4). -/
def State.takenRsp (s : State) : List RspWord :=
  if !s.pins.rst && (s.rspValid && s.pins.rspReady) then [s.rspQ] else []

/-- The response waiting in the register. -/
def State.pendingRsp (s : State) : List RspWord := if s.rspValid then [s.rspQ] else []

/-- The commands accepted in `k` edges, in order. -/
def acceptedIn : Nat → State → List CmdWord
  | 0, _ => []
  | k + 1, s =>
    s.acceptedCmd ++
      match step s with
      | .next t => acceptedIn k t
      | .fault _ => []
      | .refused _ => []

/-- The responses taken in `k` edges, in order. -/
def takenIn : Nat → State → List RspWord
  | 0, _ => []
  | k + 1, s =>
    s.takenRsp ++
      match step s with
      | .next t => takenIn k t
      | .fault _ => []
      | .refused _ => []

/-- The pins of the next `k` edges are listed, so that nothing rests on log entry 2, and none of them resets. -/
def State.noReset (k : Nat) (s : State) : Prop := k ≤ s.inputs.length ∧ ∀ p ∈ s.inputs.take k, p.rst = false

/-! ### Invariants -/

/-- A code the encoder can emit: one of the 64 alphabet codes, or the pad. -/
def isBase64Code (c : Byte) : Bool := c == padCode || (classify c).isSym

/-- The words a response can be (R43, R45): the reserved field is 0, `st`, `last` and `cnt` are a row of R45's table, every
lane that is not valid is 0, and an encoder response holds two symbols and then codes of the alphabet or pads. -/
def rspShape (w : RspWord) : Bool :=
  let d := rspData w
  w.extractLsb' 32 2 == 0#2 &&
    match (rspSt w).toNat, rspLast w, rspCnt w with
    | 0, false, 4 =>
      (classify (lane3 d)).isSym && (classify (lane2 d)).isSym && isBase64Code (lane1 d) && isBase64Code (lane0 d)
    | 0, false, 3 => lane3 d == 0#8
    | 0, true, 3 => lane3 d == 0#8
    | 0, true, 2 => lane3 d == 0#8 && lane0 d == 0#8
    | 0, true, 1 => lane3 d == 0#8 && lane1 d == 0#8 && lane0 d == 0#8
    | _, _, 0 => d == 0#32 && (if rspLast w then (rspSt w).toNat != 3 else (rspSt w).toNat == 0 || (rspSt w).toNat == 3)
    | _, _, _ => false

/-- What a waiting response says of `dec_err`: a closing response leaves it 0, a DEC response with bytes leaves it 0, and
a DEC response without bytes leaves it 1 (R14, R25). -/
def rspTellsDecErr (w : RspWord) (decErr : Bool) : Bool :=
  if rspLast w || rspCnt w == 3 then !decErr
  else if (rspSt w).toNat == 0 && rspCnt w == 0 then decErr
  else true

/-- The response register holds a word of the right shape. -/
def State.RspOk (s : State) : Prop := rspShape s.rspQ = true

/-- A waiting response agrees with `dec_err`. -/
def State.DecErrTold (s : State) : Prop := s.rspValid = true → rspTellsDecErr s.rspQ s.decErr = true

/-! ### Commands -/

/-- The payload bits a legal command uses (R42): the rest is ignored. DECF uses the lanes `c0` to `c<n-1>`. -/
def usedPayload (op aux : BitVec 4) : Payload :=
  match op.toNat, aux.toNat with
  | 1, _ => 0x00FFFFFF#32
  | 2, _ => 0x00FFFF00#32
  | 3, _ => 0x00FF0000#32
  | 4, _ => 0xFFFFFFFF#32
  | 5, 1 => 0xFF000000#32
  | 5, 2 => 0xFFFF0000#32
  | 5, 3 => 0xFFFFFF00#32
  | 5, 4 => 0xFFFFFFFF#32
  | _, _ => 0x00000000#32

/-- The word is a legal DEC or DECF, the commands of base64_decoder (R40). -/
def isDecoderCmd (w : CmdWord) : Bool :=
  legal (cmdOp w) (cmdAux w) && ((cmdOp w).toNat == 4 || (cmdOp w).toNat == 5)

/-! ### The spec's formulas, as the statements write them -/

/-- `op << 36 | aux << 32 | P` (R38). -/
def specCmd (op aux : BitVec 4) (p : Payload) : CmdWord :=
  op.setWidth 40 <<< 36 ||| aux.setWidth 40 <<< 32 ||| p.setWidth 40

/-- `st << 38 | last << 37 | cnt << 34 | D` (R43). -/
def specRsp (st : BitVec 2) (last : BitVec 1) (cnt : BitVec 3) (d : Payload) : RspWord :=
  st.setWidth 40 <<< 38 ||| last.setWidth 40 <<< 37 ||| cnt.setWidth 40 <<< 34 ||| d.setWidth 40

/-- Four codes in the lanes `[31:24]`, `[23:16]`, `[15:8]`, `[7:0]` (R30). -/
def specLanes (l3 l2 l1 l0 : Byte) : Payload :=
  l3.setWidth 32 <<< 24 ||| l2.setWidth 32 <<< 16 ||| l1.setWidth 32 <<< 8 ||| l0.setWidth 32

/-- `b0 << 16 | b1 << 8 | b2` (R27). -/
def specPack (b0 b1 b2 : Byte) : Group :=
  b0.setWidth 24 <<< 16 ||| b1.setWidth 24 <<< 8 ||| b2.setWidth 24

/-- `i0 << 18 | i1 << 12 | i2 << 6 | i3` (R29, R59). -/
def specUnpack (i0 i1 i2 i3 : Sextet) : Group :=
  i0.setWidth 24 <<< 18 ||| i1.setWidth 24 <<< 12 ||| i2.setWidth 24 <<< 6 ||| i3.setWidth 24

/-- `ALPHA` in the closed form of R47. -/
def specAlpha (i : Sextet) : Byte :=
  if i.toNat ≤ 25 then 0x41#8 + i.setWidth 8
  else if i.toNat ≤ 51 then 0x47#8 + i.setWidth 8
  else if i.toNat ≤ 61 then i.setWidth 8 - 4#8
  else if i.toNat = 62 then 0x2B#8
  else 0x2F#8

/-- The sextet `v[18+5:18]`, …: the field of `v` that starts at bit `lo`, by shift and mask (R51). -/
def specField (v : Group) (lo : Nat) : Sextet := ((v >>> lo) &&& 0x3F#24).setWidth 6

end Sys2Proof.Machine
end

