-- ==== Sys2Proof/Certificates/Slice0/Obligations.lean ====
section
/-! DEFINITION. The statements for the provers. They are written with the spec's own shift-and-or formulas (`specCmd`,
`specRsp`, `specPack`, …), against definitions written with concatenations and the table of the alphabet. A record update
`{ s with … }` names every field a command writes: all others are unchanged, so each such equation is also the frame. -/

open Sys2Proof Sys2Proof.Machine

/-! ### Encoding -/

/-- 30_encoding.md sections 1 and 2: encoding then decoding gives every well-formed command back, with every operand and
every ignored bit. -/
def Obligations.DecodeUndoesEncode : Prop := ∀ i : Instr, i.wellFormed = true → decode (encode i) = i

/-- 30_encoding.md sections 1 and 2: every word is the word of exactly one well-formed command. -/
def Obligations.EncodeUndoesDecode : Prop :=
  ∀ w : CmdWord, (decode w).wellFormed = true ∧ encode (decode w) = w ∧
    ∀ i : Instr, i.wellFormed = true → encode i = w → i = decode w

/-- R41: which words are legal, and that every other word is the illegal command and is handled by R67. -/
def Obligations.LegalOpAndAux : Prop :=
  ∀ (op aux : BitVec 4) (p : Payload),
    ((op.toNat ≤ 4 ∧ aux.toNat = 0) ∨ (op.toNat = 5 ∧ aux.toNat ≤ 4) →
      ∀ (o a : BitVec 4) (q : Payload), decode (specCmd op aux p) ≠ .illegal o a q) ∧
    (¬((op.toNat ≤ 4 ∧ aux.toNat = 0) ∨ (op.toNat = 5 ∧ aux.toNat ≤ 4)) →
      decode (specCmd op aux p) = .illegal op aux p ∧
      ∀ s : State, exec (decode (specCmd op aux p)) s =
        .next { s with rspValid := true, rspQ := specRsp 3#2 0#1 0#3 0#32 })

/-- R42: how each command assembles its operands, and that the payload bits outside its lanes are ignored. -/
def Obligations.OperandsFromPayload : Prop :=
  (∀ p : Payload,
    decode (specCmd 1#4 0#4 p) = .enc3 (lane3 p) (lane2 p) (lane1 p) (lane0 p) ∧
    enc3Value (lane2 p) (lane1 p) (lane0 p) = p.extractLsb' 0 24 ∧
    decode (specCmd 2#4 0#4 p) = .enc2 (lane3 p) (lane2 p) (lane1 p) (lane0 p) ∧
    enc2Value (lane2 p) (lane1 p) = p.extractLsb' 8 16 ++ 0#8 ∧
    decode (specCmd 3#4 0#4 p) = .enc1 (lane3 p) (lane2 p) (p.extractLsb' 0 16) ∧
    enc1Value (lane2 p) = p.extractLsb' 16 8 ++ 0#16 ∧
    decode (specCmd 4#4 0#4 p) =
      .dec (p.extractLsb' 24 8) (p.extractLsb' 16 8) (p.extractLsb' 8 8) (p.extractLsb' 0 8) ∧
    ∀ n : Nat, n ≤ 4 → decode (specCmd 5#4 (BitVec.ofNat 4 n) p) =
      .decf n (p.extractLsb' 24 8) (p.extractLsb' 16 8) (p.extractLsb' 8 8) (p.extractLsb' 0 8)) ∧
  ∀ (op aux : BitVec 4) (p q : Payload) (s : State),
    legal op aux = true → p &&& usedPayload op aux = q &&& usedPayload op aux →
    exec (decode (specCmd op aux p)) s = exec (decode (specCmd op aux q)) s

/-- 30_encoding.md section 2, on words written out from its tables. -/
def Obligations.WordsDecodeAsWritten : Prop :=
  decode 0x0012345678#40 = .nop 0x12345678#32 ∧
  decode 0x10FF4D616E#40 = .enc3 0xFF#8 0x4D#8 0x61#8 0x6E#8 ∧
  decode 0x20004D61FF#40 = .enc2 0x00#8 0x4D#8 0x61#8 0xFF#8 ∧
  decode 0x30004DFFFF#40 = .enc1 0x00#8 0x4D#8 0xFFFF#16 ∧
  decode 0x405647567A#40 = .dec 0x56#8 0x47#8 0x56#8 0x7A#8 ∧
  decode 0x5464413D3D#40 = .decf 4 0x64#8 0x41#8 0x3D#8 0x3D#8 ∧
  decode 0x5500000000#40 = .illegal 0x5#4 0x5#4 0x00000000#32

/-- 30_encoding.md section 6: the word of each assembler form, unused lanes 0. -/
def Obligations.AssemblerFormsEncode : Prop :=
  ∀ b0 b1 b2 b3 : Byte,
    encode asmNop = 0#40 ∧
    encode (asmEnc3 b0 b1 b2) = 1#40 <<< 36 ||| b0.setWidth 40 <<< 16 ||| b1.setWidth 40 <<< 8 ||| b2.setWidth 40 ∧
    encode (asmEnc2 b0 b1) = 2#40 <<< 36 ||| b0.setWidth 40 <<< 16 ||| b1.setWidth 40 <<< 8 ∧
    encode (asmEnc1 b0) = 3#40 <<< 36 ||| b0.setWidth 40 <<< 16 ∧
    encode (asmDec b0 b1 b2 b3) =
      4#40 <<< 36 ||| b0.setWidth 40 <<< 24 ||| b1.setWidth 40 <<< 16 ||| b2.setWidth 40 <<< 8 ||| b3.setWidth 40 ∧
    encode (asmDecf []) = 5#40 <<< 36 ∧
    encode (asmDecf [b0]) = 5#40 <<< 36 ||| 1#40 <<< 32 ||| b0.setWidth 40 <<< 24 ∧
    encode (asmDecf [b0, b1]) = 5#40 <<< 36 ||| 2#40 <<< 32 ||| b0.setWidth 40 <<< 24 ||| b1.setWidth 40 <<< 16 ∧
    encode (asmDecf [b0, b1, b2]) =
      5#40 <<< 36 ||| 3#40 <<< 32 ||| b0.setWidth 40 <<< 24 ||| b1.setWidth 40 <<< 16 ||| b2.setWidth 40 <<< 8 ∧
    encode (asmDecf [b0, b1, b2, b3]) = 5#40 <<< 36 ||| 4#40 <<< 32 ||| b0.setWidth 40 <<< 24 |||
      b1.setWidth 40 <<< 16 ||| b2.setWidth 40 <<< 8 ||| b3.setWidth 40

/-! ### Datapath -/

/-- R51: the four fields of a group by shift and mask, most significant first. That they cover the group exactly once,
which the spec marks as derived, is in `UnpackUndoesSplit`. -/
def Obligations.SplitTakesFields : Prop :=
  ∀ v : Group,
    (split v).x0 = (v >>> 18).setWidth 6 ∧ (split v).x1 = ((v >>> 12) &&& 0x3F#24).setWidth 6 ∧
    (split v).x2 = ((v >>> 6) &&& 0x3F#24).setWidth 6 ∧ (split v).x3 = (v &&& 0x3F#24).setWidth 6

/-- R58 without its derived part: the class of every code, by the ranges the rule lists. -/
def Obligations.ClassOfEveryCode : Prop :=
  ∀ c : Byte,
    (0x41 ≤ c.toNat ∧ c.toNat ≤ 0x5A → classify c = .sym (BitVec.ofNat 6 (c.toNat - 0x41))) ∧
    (0x61 ≤ c.toNat ∧ c.toNat ≤ 0x7A → classify c = .sym (BitVec.ofNat 6 (c.toNat - 0x47))) ∧
    (0x30 ≤ c.toNat ∧ c.toNat ≤ 0x39 → classify c = .sym (BitVec.ofNat 6 (c.toNat + 0x04))) ∧
    (c.toNat = 0x2B → classify c = .sym 62#6) ∧
    (c.toNat = 0x2F → classify c = .sym 63#6) ∧
    (c.toNat = 0x3D → classify c = .pad) ∧
    (¬(0x41 ≤ c.toNat ∧ c.toNat ≤ 0x5A) ∧ ¬(0x61 ≤ c.toNat ∧ c.toNat ≤ 0x7A) ∧ ¬(0x30 ≤ c.toNat ∧ c.toNat ≤ 0x39) ∧
      c.toNat ≠ 0x2B ∧ c.toNat ≠ 0x2F ∧ c.toNat ≠ 0x3D → classify c = .bad)

/-- 41_decoder.md section 1 and 30_encoding.md section 5 (the spec's own derivations): the ROM agrees with the closed
form of its table, and the lookup is the exact inverse of the ROM, extended with the pad and an invalid class. -/
def Obligations.ClassInvertsAlphabet : Prop :=
  (∀ i : Sextet, alpha i = specAlpha i) ∧
  ∀ c : Byte,
    (∀ i : Sextet, classify c = .sym i ↔ c = alpha i) ∧ (classify c = .pad ↔ c = 0x3D#8) ∧
    (classify c = .bad ↔ c ≠ 0x3D#8 ∧ ∀ i : Sextet, c ≠ alpha i)

/-- R59 on indices: the unpacked value and its three bytes, and the pad's index. -/
def Obligations.UnpackJoinsIndices : Prop :=
  (∀ i0 i1 i2 i3 : Sextet,
    unpack i0 i1 i2 i3 = specUnpack i0 i1 i2 i3 ∧
    unpack i0 i1 i2 i3 = i0 ++ i1 ++ i2 ++ i3 ∧
    groupBytes (unpack i0 i1 i2 i3) =
      [(specUnpack i0 i1 i2 i3 >>> 16).setWidth 8, (specUnpack i0 i1 i2 i3 >>> 8).setWidth 8,
       (specUnpack i0 i1 i2 i3).setWidth 8]) ∧
  CodeClass.pad.index = 0#6

/-- 20_memory.md section 1 and 40_encoder.md section 1 (the spec's own derivations): the four fields cover a group exactly
once, and unpacking is the exact inverse of packing and splitting. -/
def Obligations.UnpackUndoesSplit : Prop :=
  (∀ v : Group, (split v).x0 ++ (split v).x1 ++ (split v).x2 ++ (split v).x3 = v) ∧
  ∀ b0 b1 b2 : Byte,
    let x := split (specPack b0 b1 b2)
    groupBytes (unpack x.x0 x.x1 x.x2 x.x3) = [b0, b1, b2]

/-- R60: the valid final groups with their pad counts, and that every other group is invalid. -/
def Obligations.PadValidatorTable : Prop :=
  (∀ (k0 k1 k2 k3 : CodeClass) (p : Nat), padValid k0 k1 k2 k3 = some p ↔
    (∃ i0 i1, k0 = .sym i0 ∧ k1 = .sym i1) ∧
      ((p = 0 ∧ ∃ i2 i3, k2 = .sym i2 ∧ k3 = .sym i3) ∨ (p = 1 ∧ k3 = .pad ∧ ∃ i2, k2 = .sym i2) ∨
        (p = 2 ∧ k2 = .pad ∧ k3 = .pad))) ∧
  ∀ k0 k1 k2 k3 : CodeClass, padValid k0 k1 k2 k3 = none ↔
    (k0 = .bad ∨ k1 = .bad ∨ k2 = .bad ∨ k3 = .bad) ∨ (k0 = .pad ∨ k1 = .pad) ∨ (k2 = .pad ∧ k3 ≠ .pad)

/-! ### Commands -/

/-- R53, ENC3. -/
def Obligations.Enc3EncodesThreeBytes : Prop :=
  (∀ (ign b0 b1 b2 : Byte) (s : State),
    let v := specPack b0 b1 b2
    exec (.enc3 ign b0 b1 b2) s = .next { s with
      rspValid := true
      rspQ := specRsp 0#2 0#1 4#3 (specLanes (specAlpha (specField v 18)) (specAlpha (specField v 12))
        (specAlpha (specField v 6)) (specAlpha (specField v 0))) }) ∧
  (∀ p : Payload, decode (specCmd 1#4 0#4 p) =
    .enc3 (p.extractLsb' 24 8) (p.extractLsb' 16 8) (p.extractLsb' 8 8) (p.extractLsb' 0 8)) ∧
  (∀ (aux : BitVec 4) (p : Payload), aux ≠ 0#4 → decode (specCmd 1#4 aux p) = .illegal 1#4 aux p) ∧
  (∀ i : Sextet, specAlpha i ≠ 0x3D#8) ∧
  ∀ (ign : Byte) (s : State),
    exec (.enc3 ign 0x00#8 0x00#8 0x00#8) s = .next { s with rspValid := true, rspQ := 0x1041414141#40 } ∧
    exec (.enc3 ign 0xFF#8 0xFF#8 0xFF#8) s = .next { s with rspValid := true, rspQ := 0x102F2F2F2F#40 } ∧
    exec (decode 0x10004D616E#40) s = .next { s with rspValid := true, rspQ := 0x1054574675#40 }

/-- R54, ENC2, without its clause on `x2`, which the spec marks as derived. -/
def Obligations.Enc2EncodesTwoBytes : Prop :=
  (∀ (ignHi b0 b1 ignLo : Byte) (s : State),
    let v := specPack b0 b1 0#8
    specField v 0 = 0#6 ∧
    exec (.enc2 ignHi b0 b1 ignLo) s = .next { s with
      rspValid := true
      rspQ := specRsp 0#2 0#1 4#3 (specLanes (specAlpha (specField v 18)) (specAlpha (specField v 12))
        (specAlpha (specField v 6)) 0x3D#8) }) ∧
  (∀ p : Payload, decode (specCmd 2#4 0#4 p) =
    .enc2 (p.extractLsb' 24 8) (p.extractLsb' 16 8) (p.extractLsb' 8 8) (p.extractLsb' 0 8)) ∧
  ∀ (ignHi ignLo : Byte) (s : State),
    exec (.enc2 ignHi 0x00#8 0x00#8 ignLo) s = .next { s with rspValid := true, rspQ := 0x104141413D#40 } ∧
    exec (.enc2 ignHi 0xFF#8 0xFF#8 ignLo) s = .next { s with rspValid := true, rspQ := 0x102F2F383D#40 } ∧
    exec (decode 0x20004D6100#40) s = .next { s with rspValid := true, rspQ := 0x105457453D#40 } ∧
    exec (decode 0x20004D61FF#40) s = exec (decode 0x20004D6100#40) s

/-- R55, ENC1, without its clause on `x1`, which the spec marks as derived. -/
def Obligations.Enc1EncodesOneByte : Prop :=
  (∀ (ignHi b0 : Byte) (ignLo : BitVec 16) (s : State),
    let v := specPack b0 0#8 0#8
    specField v 6 = 0#6 ∧ specField v 0 = 0#6 ∧
    exec (.enc1 ignHi b0 ignLo) s = .next { s with
      rspValid := true
      rspQ := specRsp 0#2 0#1 4#3 (specLanes (specAlpha (specField v 18)) (specAlpha (specField v 12)) 0x3D#8 0x3D#8) }) ∧
  (∀ p : Payload, decode (specCmd 3#4 0#4 p) = .enc1 (p.extractLsb' 24 8) (p.extractLsb' 16 8) (p.extractLsb' 0 16)) ∧
  ∀ (ignHi : Byte) (ignLo : BitVec 16) (s : State),
    exec (.enc1 ignHi 0x00#8 ignLo) s = .next { s with rspValid := true, rspQ := 0x1041413D3D#40 } ∧
    exec (.enc1 ignHi 0xFF#8 ignLo) s = .next { s with rspValid := true, rspQ := 0x102F773D3D#40 } ∧
    exec (decode 0x30004D0000#40) s = .next { s with rspValid := true, rspQ := 0x1054513D3D#40 }

/-- 40_encoder.md section 2, the clauses of R54 and R55 the spec marks as derived: the last symbol of a partial group
has only the indices its bytes leave open. -/
def Obligations.PartialGroupLastIndex : Prop :=
  ∀ b0 b1 : Byte,
    (split (enc2Value b0 b1)).x2 = b1.extractLsb' 0 4 ++ 0#2 ∧
    (split (enc1Value b0)).x1 = b0.extractLsb' 0 2 ++ 0#4 ∧
    (alpha (split (enc1Value b0)).x1 = 0x41#8 ∨ alpha (split (enc1Value b0)).x1 = 0x51#8 ∨
      alpha (split (enc1Value b0)).x1 = 0x67#8 ∨ alpha (split (enc1Value b0)).x1 = 0x77#8)

/-- 40_encoder.md section 3 (the spec's own derivation): the pads of an encoder response are 0, 1 or 2 and stand in the
last lanes. -/
def Obligations.EncoderPadsStandLast : Prop :=
  ∀ (s : State) (g b0 b1 b2 : Byte) (g2 : BitVec 16),
    (∃ t, exec (.enc3 g b0 b1 b2) s = .next t ∧ (dataLanes t.rspQ).map (· == padCode) = [false, false, false, false]) ∧
    (∃ t, exec (.enc2 g b0 b1 b2) s = .next t ∧ (dataLanes t.rspQ).map (· == padCode) = [false, false, false, true]) ∧
    ∃ t, exec (.enc1 g b0 g2) s = .next t ∧ (dataLanes t.rspQ).map (· == padCode) = [false, false, true, true]

/-- R61, DEC. -/
def Obligations.DecDecodesAGroup : Prop :=
  (∀ (c0 c1 c2 c3 : Byte) (i0 i1 i2 i3 : Sextet) (s : State), s.decErr = false →
    classify c0 = .sym i0 → classify c1 = .sym i1 → classify c2 = .sym i2 → classify c3 = .sym i3 →
    exec (.dec c0 c1 c2 c3) s = .next { s with
      decErr := false
      rspValid := true
      rspQ := specRsp 0#2 0#1 3#3 ((specUnpack i0 i1 i2 i3).setWidth 32) }) ∧
  (∀ (c0 c1 c2 c3 : Byte) (s : State),
    s.decErr = true ∨ (¬∃ i, classify c0 = .sym i) ∨ (¬∃ i, classify c1 = .sym i) ∨ (¬∃ i, classify c2 = .sym i) ∨
      (¬∃ i, classify c3 = .sym i) →
    exec (.dec c0 c1 c2 c3) s =
      .next { s with decErr := true, rspValid := true, rspQ := specRsp 0#2 0#1 0#3 0#32 }) ∧
  (∀ p : Payload, decode (specCmd 4#4 0#4 p) =
    .dec (p.extractLsb' 24 8) (p.extractLsb' 16 8) (p.extractLsb' 8 8) (p.extractLsb' 0 8)) ∧
  (∀ (c0 c1 c2 c3 : Byte) (s : State), c0 = 0x3D#8 ∨ c1 = 0x3D#8 ∨ c2 = 0x3D#8 ∨ c3 = 0x3D#8 →
    exec (.dec c0 c1 c2 c3) s = .next { s with decErr := true, rspValid := true, rspQ := 0#40 }) ∧
  ∀ s : State, s.decErr = false →
    exec (.dec 0x41#8 0x41#8 0x41#8 0x41#8) s = .next { s with rspValid := true, rspQ := 0x0C00000000#40 } ∧
    exec (.dec 0x2F#8 0x2F#8 0x2F#8 0x2F#8) s = .next { s with rspValid := true, rspQ := 0x0C00FFFFFF#40 } ∧
    exec (decode 0x4054574675#40) s = .next { s with rspValid := true, rspQ := 0x0C004D616E#40 }

/-- R62, DECF, every legal `n` and every kind of final group. -/
def Obligations.DecfClosesTheMessage : Prop :=
  (∀ (c0 c1 c2 c3 : Byte) (s : State),
    exec (.decf 0 c0 c1 c2 c3) s = .next { s with
      decErr := false
      rspValid := true
      rspQ := specRsp (if s.decErr then 2#2 else 0#2) 1#1 0#3 0#32 }) ∧
  (∀ (n : Nat) (c0 c1 c2 c3 : Byte) (s : State), 1 ≤ n → n ≤ 3 →
    exec (.decf n c0 c1 c2 c3) s =
      .next { s with decErr := false, rspValid := true, rspQ := specRsp 1#2 1#1 0#3 0#32 }) ∧
  (∀ (c0 c1 c2 c3 : Byte) (i0 i1 i2 i3 : Sextet) (s : State), s.decErr = false →
    classify c0 = .sym i0 → classify c1 = .sym i1 → classify c2 = .sym i2 → classify c3 = .sym i3 →
    exec (.decf 4 c0 c1 c2 c3) s = .next { s with
      decErr := false
      rspValid := true
      rspQ := specRsp 0#2 1#1 3#3 ((specUnpack i0 i1 i2 i3).setWidth 32 &&& 0x00FFFFFF#32) }) ∧
  (∀ (c0 c1 c2 c3 : Byte) (i0 i1 i2 : Sextet) (s : State), s.decErr = false →
    classify c0 = .sym i0 → classify c1 = .sym i1 → classify c2 = .sym i2 → classify c3 = .pad →
    exec (.decf 4 c0 c1 c2 c3) s = .next { s with
      decErr := false
      rspValid := true
      rspQ := specRsp 0#2 1#1 2#3 ((specUnpack i0 i1 i2 0#6).setWidth 32 &&& 0x00FFFF00#32) }) ∧
  (∀ (c0 c1 c2 c3 : Byte) (i0 i1 : Sextet) (s : State), s.decErr = false →
    classify c0 = .sym i0 → classify c1 = .sym i1 → classify c2 = .pad → classify c3 = .pad →
    exec (.decf 4 c0 c1 c2 c3) s = .next { s with
      decErr := false
      rspValid := true
      rspQ := specRsp 0#2 1#1 1#3 ((specUnpack i0 i1 0#6 0#6).setWidth 32 &&& 0x00FF0000#32) }) ∧
  (∀ (c0 c1 c2 c3 : Byte) (s : State),
    s.decErr = true ∨ padValid (classify c0) (classify c1) (classify c2) (classify c3) = none →
    exec (.decf 4 c0 c1 c2 c3) s =
      .next { s with decErr := false, rspValid := true, rspQ := specRsp 2#2 1#1 0#3 0#32 }) ∧
  (∀ (n : Nat) (p : Payload), n ≤ 4 → decode (specCmd 5#4 (BitVec.ofNat 4 n) p) =
    .decf n (p.extractLsb' 24 8) (p.extractLsb' 16 8) (p.extractLsb' 8 8) (p.extractLsb' 0 8)) ∧
  (∀ (aux : BitVec 4) (p : Payload), 4 < aux.toNat → decode (specCmd 5#4 aux p) = .illegal 5#4 aux p) ∧
  ∀ s : State, s.decErr = false →
    exec (decode 0x5464413D3D#40) s = .next { s with rspValid := true, rspQ := 0x2400740000#40 }

/-- R63: the bits that padding discards are not checked. -/
def Obligations.DiscardedBitsAccepted : Prop :=
  (∀ (c0 c1 d1 : Byte) (i1 j1 : Sextet) (s : State),
    classify c1 = .sym i1 → classify d1 = .sym j1 → i1 >>> 4 = j1 >>> 4 →
    exec (.decf 4 c0 c1 0x3D#8 0x3D#8) s = exec (.decf 4 c0 d1 0x3D#8 0x3D#8) s) ∧
  (∀ (c0 c1 c2 d2 : Byte) (i2 j2 : Sextet) (s : State),
    classify c2 = .sym i2 → classify d2 = .sym j2 → i2 >>> 2 = j2 >>> 2 →
    exec (.decf 4 c0 c1 c2 0x3D#8) s = exec (.decf 4 c0 c1 d2 0x3D#8) s) ∧
  (∀ (c0 c1 : Byte) (i0 i1 : Sextet) (s : State), s.decErr = false → classify c0 = .sym i0 → classify c1 = .sym i1 →
    ∃ t, exec (.decf 4 c0 c1 0x3D#8 0x3D#8) s = .next t ∧ rspSt t.rspQ = 0#2 ∧ hostBytes [t.rspQ] = [i0 ++ i1.extractLsb' 4 2]) ∧
  (∀ (c0 c1 c2 : Byte) (i0 i1 i2 : Sextet) (s : State), s.decErr = false → classify c0 = .sym i0 →
    classify c1 = .sym i1 → classify c2 = .sym i2 →
    ∃ t, exec (.decf 4 c0 c1 c2 0x3D#8) s = .next t ∧ rspSt t.rspQ = 0#2 ∧
      hostBytes [t.rspQ] = [i0 ++ i1.extractLsb' 4 2, i1.extractLsb' 0 4 ++ i2.extractLsb' 2 4]) ∧
  ∀ s : State, s.decErr = false →
    exec (.decf 4 0x54#8 0x52#8 0x3D#8 0x3D#8) s = .next { s with rspValid := true, rspQ := 0x24004D0000#40 } ∧
    exec (.decf 4 0x54#8 0x57#8 0x46#8 0x3D#8) s = .next { s with rspValid := true, rspQ := 0x28004D6100#40 }

/-- R66, NOP. -/
def Obligations.NopDoesNothing : Prop :=
  (∀ (ign : Payload) (s : State), exec (.nop ign) s = .next s) ∧
  (∀ p : Payload, decode (specCmd 0#4 0#4 p) = .nop p) ∧
  (∀ (aux : BitVec 4) (p : Payload) (s : State), aux ≠ 0#4 →
    exec (decode (specCmd 0#4 aux p)) s = .next { s with rspValid := true, rspQ := 0xC000000000#40 }) ∧
  ∀ (s : State) (q : Pins) (rest : List Pins) (p : Payload), s.inputs = q :: rest → q.rst = false →
    q.cmd = specCmd 0#4 0#4 p → step s = .next { s with inputs := rest, rspValid := s.rspValid && !q.rspReady }

/-- R67, every illegal word. -/
def Obligations.IllegalWordAnswersItsStatus : Prop :=
  (∀ (op aux : BitVec 4) (p : Payload) (s : State),
    6 ≤ op.toNat ∨ (op.toNat ≤ 4 ∧ aux.toNat ≠ 0) ∨ (op.toNat = 5 ∧ 5 ≤ aux.toNat) →
    decode (specCmd op aux p) = .illegal op aux p ∧
    exec (.illegal op aux p) s = .next { s with rspValid := true, rspQ := specRsp 3#2 0#1 0#3 0#32 }) ∧
  (∀ s : State,
    exec (decode 0xFFFFFFFFFF#40) s = .next { s with rspValid := true, rspQ := 0xC000000000#40 } ∧
    exec (decode 0x5500000000#40) s = .next { s with rspValid := true, rspQ := 0xC000000000#40 } ∧
    exec (decode 0x11004D616E#40) s = .next { s with rspValid := true, rspQ := 0xC000000000#40 } ∧
    exec (decode 0x6000000000#40) s = .next { s with rspValid := true, rspQ := 0xC000000000#40 })

/-- R14: how every command leaves `dec_err`, who reads it, and its reset value. -/
def Obligations.DecErrFollowsItsRule : Prop :=
  (∀ (i : Instr) (s : State), i.wellFormed = true → ∃ t, exec i s = .next t ∧ t.decErr =
    (match i with
      | .dec c0 c1 c2 c3 => s.decErr ||
          !((classify c0).isSym && (classify c1).isSym && (classify c2).isSym && (classify c3).isSym)
      | .decf _ _ _ _ _ => false
      | .nop _ => s.decErr
      | .enc3 _ _ _ _ => s.decErr
      | .enc2 _ _ _ _ => s.decErr
      | .enc1 _ _ _ => s.decErr
      | .illegal _ _ _ => s.decErr)) ∧
  (∀ (c0 c1 c2 c3 : Byte) (s : State), s.decErr = true →
    (∃ t, exec (.dec c0 c1 c2 c3) s = .next t ∧ rspCnt t.rspQ = 0) ∧
    (∃ t, exec (.decf 0 c0 c1 c2 c3) s = .next t ∧ rspSt t.rspQ = 2#2) ∧
    ∃ t, exec (.decf 4 c0 c1 c2 c3) s = .next t ∧ rspSt t.rspQ = 2#2) ∧
  State.reset.decErr = false

/-- 10_state.md sections 1 and 6, 40_encoder.md section 3 (the spec's own derivation for the encoder commands) and
42_control.md (NOP and illegal words keep `dec_err`): two machines that differ in `dec_err` alone answer every encoder
command, NOP and illegal word alike, and keep differing in it alone. There is no premise of well-formedness: an `illegal`
term with legal fields, which no word decodes to, is covered too, and there the statement rests on the model's own choice
(log entry 7, DEDUCED), not on the spec. -/
def Obligations.DecErrHiddenFromOtherCommands : Prop :=
  ∀ (i : Instr) (s : State) (e : Bool),
    (∀ c0 c1 c2 c3, i ≠ .dec c0 c1 c2 c3) → (∀ n c0 c1 c2 c3, i ≠ .decf n c0 c1 c2 c3) →
    ∃ t, exec i s = .next t ∧ exec i { s with decErr := e } = .next { t with decErr := e }

/-- R78: which command reports which error kind and when, and that an error carries nothing else. -/
def Obligations.ErrorKindsAndWhoRaisesThem : Prop :=
  ∀ (i : Instr) (s : State), i.wellFormed = true → s.rspValid = false →
    ∃ t, exec i s = .next t ∧
      (t.rspValid = true ∧ rspSt t.rspQ = 1#2 ↔ ∃ n c0 c1 c2 c3, i = .decf n c0 c1 c2 c3 ∧ 1 ≤ n ∧ n ≤ 3) ∧
      (t.rspValid = true ∧ rspSt t.rspQ = 2#2 ↔
        (s.decErr = true ∧ ∃ c0 c1 c2 c3, i = .decf 0 c0 c1 c2 c3) ∨
        ∃ c0 c1 c2 c3, i = .decf 4 c0 c1 c2 c3 ∧
          (s.decErr = true ∨ padValid (classify c0) (classify c1) (classify c2) (classify c3) = none)) ∧
      (t.rspValid = true ∧ rspSt t.rspQ = 3#2 ↔ ∃ op aux p, i = .illegal op aux p) ∧
      (t.rspValid = true → rspSt t.rspQ ≠ 0#2 → rspCnt t.rspQ = 0 ∧ rspData t.rspQ = 0#32)

/-- R23: the meaning of a command word is one function of the word and `dec_err`; it is total, and nothing else of the
state enters its response or its new `dec_err`. -/
def Obligations.ExecIsAFunctionOfWordAndDecErr : Prop :=
  (∀ (w : CmdWord) (s : State), exec (decode w) s = .next (match (execWord w s.decErr).rsp with
    | some r => { s with decErr := (execWord w s.decErr).decErr, rspValid := true, rspQ := r }
    | none => { s with decErr := (execWord w s.decErr).decErr })) ∧
  ∀ op aux : BitVec 4, legal op aux = true ↔ (op.toNat ≤ 4 ∧ aux.toNat = 0) ∨ (op.toNat = 5 ∧ aux.toNat ≤ 4)

/-! ### Edges of the clock -/

/-- 70_reset_and_hazards.md section 2: at an edge that accepts a word, the step is the meaning of the command the word
decodes to, on the state whose pins are used up and whose waiting response has been taken. -/
def Obligations.StepRunsTheDecodedCommand : Prop :=
  ∀ (s : State) (p : Pins) (rest : List Pins) (i : Instr), s.inputs = p :: rest → p.rst = false → p.cmdValid = true →
    (s.rspValid = false ∨ p.rspReady = true) → decode p.cmd = i → i.wellFormed = true →
    step s = exec i { s with inputs := rest, rspValid := false }

/-- R94 with R22 and R16: every edge, from the pins at it; the command is read at an accepting edge only; what is loaded
appears on the ports. -/
def Obligations.EdgeFollowsThePseudocode : Prop :=
  (∀ (s : State) (p : Pins) (rest : List Pins), s.inputs = p :: rest →
    step s = .next (
      if p.rst then { decErr := false, rspValid := false, rspQ := 0#40, inputs := rest }
      else if p.cmdValid && (!s.rspValid || p.rspReady) then
        match (execWord p.cmd s.decErr).rsp with
        | some r => { decErr := (execWord p.cmd s.decErr).decErr, rspValid := true, rspQ := r, inputs := rest }
        | none => { decErr := (execWord p.cmd s.decErr).decErr,
                    rspValid := if s.rspValid && p.rspReady then false else s.rspValid,
                    rspQ := s.rspQ, inputs := rest }
      else { s with rspValid := if s.rspValid && p.rspReady then false else s.rspValid, inputs := rest })) ∧
  (∀ (s : State) (p : Pins) (c : CmdWord) (rest : List Pins), s.cmdReady p = false →
    step { s with inputs := { p with cmd := c } :: rest } = step { s with inputs := p :: rest }) ∧
  ∀ (s : State) (p : Pins), (s.outputs p).2 = (s.rspValid, s.rspQ)

/-- R91: one edge with `rst = 1` reaches the reset state from every state, whatever the other pins; it accepts nothing. -/
def Obligations.ResetEdgeReachesReset : Prop :=
  ∀ (s : State) (p : Pins) (rest : List Pins), s.inputs = p :: rest → p.rst = true →
    step s = .next { State.reset with inputs := rest } ∧ s.cmdReady p = false ∧ s.acceptedCmd = []

/-- R26: the values after reset, and `cmd_ready` during and after it. -/
def Obligations.ResetValues : Prop :=
  State.reset.decErr = false ∧ State.reset.rspValid = false ∧ State.reset.rspQ = 0x0000000000#40 ∧
  (∀ (s : State) (p : Pins), p.rst = true → s.cmdReady p = false) ∧
  ∀ p : Pins, p.rst = false → State.reset.cmdReady p = true

/-- R93: when the block is ready, that it accepts exactly then, and that only reset loses a waiting response. -/
def Obligations.AcceptanceAndNoLostResponse : Prop :=
  (∀ (s : State) (p : Pins), s.cmdReady p = true ↔ p.rst = false ∧ (s.rspValid = false ∨ p.rspReady = true)) ∧
  (∀ (s : State) (p : Pins) (rest : List Pins), s.inputs = p :: rest →
    s.acceptedCmd = if p.cmdValid = true ∧ s.cmdReady p = true then [p.cmd] else []) ∧
  ∀ (s : State) (p : Pins) (rest : List Pins), s.inputs = p :: rest → s.rspValid = true → p.rst = false →
    p.rspReady = false → step s = .next { s with inputs := rest }

/-- 60_exceptions.md section 2 and 70_reset_and_hazards.md section 2: no state stops the block, whatever the host drives.
Past the end of the listed pins this rests on the model's idle pins (log entry 2, DESIGN CHOICE). -/
def Obligations.BlockNeverStops : Prop := ∀ (k : Nat) (s : State), ∃ t, runEdges k s = .next t ∧ t.inputs = s.inputs.drop k

/-- 70_reset_and_hazards.md section 3 (the spec's own derivation): while the host neither takes the response nor resets,
a waiting block accepts nothing and keeps its state, for ever. -/
def Obligations.UntakenResponseStalls : Prop :=
  ∀ (k : Nat) (s : State), s.rspValid = true → k ≤ s.inputs.length →
    (∀ p ∈ s.inputs.take k, p.rst = false ∧ p.rspReady = false) →
    runEdges k s = .next { s with inputs := s.inputs.drop k } ∧ acceptedIn k s = [] ∧ takenIn k s = []

/-- 70_reset_and_hazards.md section 2: a command that answers has its response on the port `LAT` edges after its
acceptance, whichever command it is. -/
def Obligations.ResponseAfterLatency : Prop :=
  ∀ (s : State) (p : Pins) (rest : List Pins) (r : RspWord), s.inputs = p :: rest → p.rst = false → p.cmdValid = true →
    (s.rspValid = false ∨ p.rspReady = true) → (execWord p.cmd s.decErr).rsp = some r →
    ∃ t, runEdges Config.lat s = .next t ∧ t.pendingRsp = [r]

/-- 70_reset_and_hazards.md sections 2 and 3: a host that always takes responses has one command accepted at every edge,
and one edge more takes the last response. -/
def Obligations.FullRateRun : Prop :=
  ∀ (cs : List CmdWord) (s : State), s.rspValid = false →
    s.inputs = cs.map Pins.present ++ [{ rst := false, cmdValid := false, cmd := 0#40, rspReady := true }] →
    acceptedIn cs.length s = cs ∧ takenIn (cs.length + 1) s = responses cs s.decErr ∧
    ∃ t, runEdges (cs.length + 1) s = .next t ∧ t.decErr = decErrAfter cs s.decErr ∧ t.rspValid = false ∧ t.inputs = []

/-- R34: over any run without reset, however the host stalls, the responses taken and the one waiting are exactly those
of the commands accepted, in their order, each command seeing the `dec_err` its predecessor left. -/
def Obligations.CommandsRunInOrder : Prop :=
  ∀ (k : Nat) (s : State), s.noReset k →
    ∃ t, runEdges k s = .next t ∧
      takenIn k s ++ t.pendingRsp = s.pendingRsp ++ responses (acceptedIn k s) s.decErr ∧
      t.decErr = decErrAfter (acceptedIn k s) s.decErr

/-- 30_encoding.md section 3: every edge keeps the response register on a word a response can be. -/
def Obligations.ResponseShapeKept : Prop := ∀ s t : State, s.RspOk → step s = .next t → t.RspOk

/-- 10_state.md sections 1 and 6: every edge keeps what a waiting response says of `dec_err`: a closing response or one
with bytes of a DEC leaves it 0, an empty DEC response leaves it 1. -/
def Obligations.WaitingResponseTellsDecErr : Prop :=
  ∀ s t : State, s.DecErrTold → step s = .next t → t.DecErrTold

/-- 10_state.md section 6: the two invariants hold after reset. -/
def Obligations.InvariantsHoldAtReset : Prop := State.reset.RspOk ∧ State.reset.DecErrTold

/-! ### Messages -/

/-- R68: `Encode(b)` by its loop over complete groups and its partial group. -/
def Obligations.EncodeFollowsItsLoop : Prop :=
  ∀ b : List Byte,
    encodeMsg b =
      ((List.range (b.length / 3)).flatMap fun g =>
        let v := specPack (b.getD (3 * g) 0#8) (b.getD (3 * g + 1) 0#8) (b.getD (3 * g + 2) 0#8)
        [specAlpha (specField v 18), specAlpha (specField v 12), specAlpha (specField v 6), specAlpha (specField v 0)]) ++
      (if b.length % 3 = 1 then
        let v := specPack (b.getD (b.length - 1) 0#8) 0#8 0#8
        [specAlpha (specField v 18), specAlpha (specField v 12), 0x3D#8, 0x3D#8]
      else if b.length % 3 = 2 then
        let v := specPack (b.getD (b.length - 2) 0#8) (b.getD (b.length - 1) 0#8) 0#8
        [specAlpha (specField v 18), specAlpha (specField v 12), specAlpha (specField v 6), 0x3D#8]
      else [])

/-- R69: `Decode(t)` by its checks in their order and its loop over the groups. -/
def Obligations.DecodeFollowsItsLoop : Prop :=
  ∀ t : List Byte,
    let m := t.length
    let k := fun j => classify (t.getD j 0#8)
    (m % 4 ≠ 0 → decodeMsg t = .error .invalidLength) ∧
    (m = 0 → decodeMsg t = .ok []) ∧
    (m % 4 = 0 → 0 < m → (∃ j, j + 4 < m ∧ (k j).isSym = false) → decodeMsg t = .error .invalidSymbol) ∧
    (m % 4 = 0 → 0 < m → padValid (k (m - 4)) (k (m - 3)) (k (m - 2)) (k (m - 1)) = none →
      decodeMsg t = .error .invalidSymbol) ∧
    ∀ p, m % 4 = 0 → 0 < m → (∀ j, j + 4 < m → (k j).isSym = true) →
      padValid (k (m - 4)) (k (m - 3)) (k (m - 2)) (k (m - 1)) = some p →
      decodeMsg t = .ok (((List.range (m / 4)).flatMap fun g =>
        let v := specUnpack (k (4 * g)).index (k (4 * g + 1)).index (k (4 * g + 2)).index (k (4 * g + 3)).index
        [(v >>> 16).setWidth 8, (v >>> 8).setWidth 8, v.setWidth 8]).take (3 * (m / 4) - p))

/-- R70: `EncFrame(b)`. -/
def Obligations.EncodeFraming : Prop :=
  ∀ b : List Byte,
    encFrame b =
      ((List.range (b.length / 3)).map fun g =>
        asmEnc3 (b.getD (3 * g) 0#8) (b.getD (3 * g + 1) 0#8) (b.getD (3 * g + 2) 0#8)) ++
      (if b.length % 3 = 2 then [asmEnc2 (b.getD (b.length - 2) 0#8) (b.getD (b.length - 1) 0#8)]
      else if b.length % 3 = 1 then [asmEnc1 (b.getD (b.length - 1) 0#8)]
      else [])

/-- 43_message.md section 2: `DecFrame(t)` (its framing is a rule; that the DECs before a length error may be left out is
the spec's own derivation and is not stated here). -/
def Obligations.DecodeFraming : Prop :=
  ∀ t : List Byte,
    let m := t.length
    let dec := fun g => asmDec (t.getD (4 * g) 0#8) (t.getD (4 * g + 1) 0#8) (t.getD (4 * g + 2) 0#8) (t.getD (4 * g + 3) 0#8)
    (m = 0 → decFrame t = [.decf 0 0#8 0#8 0#8 0#8]) ∧
    (0 < m → m % 4 = 0 → decFrame t = (List.range (m / 4 - 1)).map dec ++
      [.decf 4 (t.getD (m - 4) 0#8) (t.getD (m - 3) 0#8) (t.getD (m - 2) 0#8) (t.getD (m - 1) 0#8)]) ∧
    (m % 4 ≠ 0 → decFrame t = (List.range (m / 4)).map dec ++ [asmDecf (t.drop (4 * (m / 4)))])

/-- 43_message.md section 3 (the spec's own derivation), on the clocked block: from any state with a free response
register, over any run without reset whose accepted commands are `EncFrame(b)`, the host reads `Encode(b)`, every response
is `OK` with four symbols, there is one response for each command, and `dec_err` is unchanged. -/
def Obligations.BlockComputesEncode : Prop :=
  ∀ (k : Nat) (s : State) (b : List Byte), s.noReset k → s.rspValid = false →
    acceptedIn k s = (encFrame b).map encode →
    ∃ t, runEdges k s = .next t ∧ t.decErr = s.decErr ∧
      hostText (takenIn k s ++ t.pendingRsp) = encodeMsg b ∧
      (∀ w ∈ takenIn k s ++ t.pendingRsp, rspSt w = 0#2 ∧ rspCnt w = 4) ∧
      (takenIn k s ++ t.pendingRsp).length = (encFrame b).length

/-- 43_message.md section 3 (the spec's own derivation), on the clocked block: from `dec_err = 0`, over any run without
reset whose accepted commands are `DecFrame(t)`, the host concludes exactly `Decode(t)`, and `dec_err` is 0 again. -/
def Obligations.BlockComputesDecode : Prop :=
  ∀ (k : Nat) (s : State) (t : List Byte), s.noReset k → s.rspValid = false → s.decErr = false →
    acceptedIn k s = (decFrame t).map encode →
    ∃ s', runEdges k s = .next s' ∧ s'.decErr = false ∧
      hostDecode (takenIn k s ++ s'.pendingRsp) = some (decodeMsg t)

/-- 43_message.md section 4 (the spec's own derivation): decoding an encoded text gives the bytes back. -/
def Obligations.DecodeOfEncodeIsIdentity : Prop := ∀ b : List Byte, decodeMsg (encodeMsg b) = .ok b

/-- 43_message.md section 4, through the block: the text the block gives for `EncFrame(b)`, framed and sent back, is
decoded to `b`, whatever `dec_err` stood before the encoding. -/
def Obligations.BlockRoundTrip : Prop :=
  ∀ (b : List Byte) (e : Bool),
    hostDecode (responses ((decFrame (hostText (responses ((encFrame b).map encode) e))).map encode) false) = some (.ok b)

/-- 43_message.md section 4 (the spec's own derivation): the length of an encoded text and the number of its commands. -/
def Obligations.EncodedLength : Prop :=
  ∀ b : List Byte, (encodeMsg b).length = 4 * ((b.length + 2) / 3) ∧ (encodeMsg b = [] ↔ b = []) ∧
    (encFrame b).length = (b.length + 2) / 3

/-- 43_message.md section 4 (the spec's own derivation, corrected by 90_conflicts.md C1): the pads of an encoded text. -/
def Obligations.EncodedPads : Prop :=
  ∀ b : List Byte, ∃ body : List Byte, (∀ c ∈ body, c ≠ 0x3D#8) ∧
    (b.length % 3 = 0 → encodeMsg b = body) ∧
    (b.length % 3 = 1 → encodeMsg b = body ++ [0x3D#8, 0x3D#8]) ∧
    (b.length % 3 = 2 → encodeMsg b = body ++ [0x3D#8])

/-- 43_message.md section 4 (the spec's own derivation): the errors of `Decode`. -/
def Obligations.DecodeErrors : Prop :=
  ∀ t : List Byte,
    (t.length % 4 ≠ 0 → decodeMsg t = .error .invalidLength) ∧
    (t.length % 4 = 0 → (∃ c ∈ t, classify c = .bad) → decodeMsg t = .error .invalidSymbol)

/-- 60_exceptions.md section 1 (the spec's own derivation): a length error is reported before any symbol error, whatever
the codes and whatever was pending. -/
def Obligations.LengthErrorComesFirst : Prop :=
  ∀ (t : List Byte) (e : Bool), t.length % 4 ≠ 0 →
    hostDecode (responses ((decFrame t).map encode) e) = some (.error .invalidLength) ∧
    decErrAfter ((decFrame t).map encode) e = false

/-- 70_reset_and_hazards.md sections 1 and 3 (the spec's own derivations): a message left open with an error spoils the
next one, and `DECF 0` first makes the next one right, from any state. -/
def Obligations.AbandonedMessage : Prop :=
  ∀ t : List Byte,
    (t.length % 4 = 0 → hostDecode (responses ((decFrame t).map encode) true) = some (.error .invalidSymbol)) ∧
    ∀ e : Bool, hostDecode (responses ((decFrame t).map encode) (decErrAfter [encode (asmDecf [])] e)) = some (decodeMsg t)

/-- 70_reset_and_hazards.md section 3 (the spec's own derivation): a final group sent as DEC and closed by `DECF 0` fails
when it holds a pad and gives the same result as `DECF 4` when it holds none. -/
def Obligations.FinalGroupBelongsInDecf : Prop :=
  ∀ c0 c1 c2 c3 : Byte,
    let asDec := hostDecode (responses [encode (asmDec c0 c1 c2 c3), encode (asmDecf [])] false)
    let asDecf := hostDecode (responses [encode (asmDecf [c0, c1, c2, c3])] false)
    (0x3D#8 ∈ [c0, c1, c2, c3] → asDec = some (.error .invalidSymbol)) ∧
    (0x3D#8 ∉ [c0, c1, c2, c3] → asDec = asDecf)

/-- 40_encoder.md section 3 and 70_reset_and_hazards.md section 3 (the spec's own derivation): encoder commands, NOPs and
illegal words anywhere in the stream change no answer of a decoder command and no `dec_err`, and their own answers do not
depend on where they stand. -/
def Obligations.OtherCommandsInterleaveFreely : Prop :=
  (∀ (cs : List CmdWord) (e : Bool),
    (cs.zip (answers cs e)).filter (fun x => isDecoderCmd x.1) =
      (cs.filter isDecoderCmd).zip (answers (cs.filter isDecoderCmd) e) ∧
    decErrAfter cs e = decErrAfter (cs.filter isDecoderCmd) e) ∧
  ∀ (cs : List CmdWord) (e : Bool) (x : CmdWord × Option RspWord), x ∈ cs.zip (answers cs e) →
    isDecoderCmd x.1 = false → x.2 = (execWord x.1 false).rsp
end

