-- ==== Sys2Proof/Laws/Bits.lean ====
section
/-! SUPPORT. The bits of the words built by concatenation, the fields of such words, and the spec's shift-and-or formulas
for them. -/

namespace Sys2Proof

/-- One bit of a concatenation whose width is written as a numeral. -/
theorem getLsbD_concat {n m k : Nat} (h : n + m = k) (x : BitVec n) (y : BitVec m) (i : Nat) :
    ((x ++ y).cast h).getLsbD i = if i < m then y.getLsbD i else x.getLsbD (i - m) := by
  simp [BitVec.getLsbD_append]

theorem payloadOf_getLsbD (a b c d : Byte) (i : Nat) : (payloadOf a b c d).getLsbD i =
    if i < 8 then d.getLsbD i else if i - 8 < 8 then c.getLsbD (i - 8)
    else if i - 8 - 8 < 8 then b.getLsbD (i - 8 - 8) else a.getLsbD (i - 8 - 8 - 8) := by
  rw [← getLsbD_concat (k := 16) rfl a b, ← getLsbD_concat (k := 24) rfl _ c, ← getLsbD_concat (k := 32) rfl _ d]; rfl

theorem cmdWord_getLsbD (op aux : BitVec 4) (p : Payload) (i : Nat) : (cmdWord op aux p).getLsbD i =
    if i < 32 then p.getLsbD i else if i - 32 < 4 then aux.getLsbD (i - 32) else op.getLsbD (i - 32 - 4) := by
  rw [← getLsbD_concat (k := 8) rfl op aux, ← getLsbD_concat (k := 40) rfl _ p]; rfl

@[simp] theorem lane3_payloadOf (a b c d : Byte) : lane3 (payloadOf a b c d) = a := by
  apply BitVec.eq_of_getLsbD_eq; intro i hi
  simp only [lane3, BitVec.getLsbD_extractLsb', payloadOf_getLsbD, hi, decide_true, Bool.true_and]
  split_ifs <;> first | omega | (congr 1; omega)
@[simp] theorem lane2_payloadOf (a b c d : Byte) : lane2 (payloadOf a b c d) = b := by
  apply BitVec.eq_of_getLsbD_eq; intro i hi
  simp only [lane2, BitVec.getLsbD_extractLsb', payloadOf_getLsbD, hi, decide_true, Bool.true_and]
  split_ifs <;> first | omega | (congr 1; omega)
@[simp] theorem lane1_payloadOf (a b c d : Byte) : lane1 (payloadOf a b c d) = c := by
  apply BitVec.eq_of_getLsbD_eq; intro i hi
  simp only [lane1, BitVec.getLsbD_extractLsb', payloadOf_getLsbD, hi, decide_true, Bool.true_and]
  split_ifs <;> first | omega | (congr 1; omega)
@[simp] theorem lane0_payloadOf (a b c d : Byte) : lane0 (payloadOf a b c d) = d := by
  apply BitVec.eq_of_getLsbD_eq; intro i hi
  simp only [lane0, BitVec.getLsbD_extractLsb', payloadOf_getLsbD, hi, decide_true, Bool.true_and]
  split_ifs <;> first | omega | (congr 1; omega)

/-- The lanes determine the payload. -/
theorem payloadOf_lanes (p : Payload) : payloadOf (lane3 p) (lane2 p) (lane1 p) (lane0 p) = p := by
  apply BitVec.eq_of_getLsbD_eq; intro i hi
  simp only [payloadOf_getLsbD, lane3, lane2, lane1, lane0, BitVec.getLsbD_extractLsb']
  split_ifs
  · simp [*]
  · simp [*, show 8 + (i - 8) = i by omega]
  · simp [*, show 16 + (i - 8 - 8) = i by omega]
  · simp [show i - 8 - 8 - 8 < 8 by omega, show 24 + (i - 8 - 8 - 8) = i by omega]

@[simp] theorem cmdOp_cmdWord (op aux : BitVec 4) (p : Payload) : cmdOp (cmdWord op aux p) = op := by
  apply BitVec.eq_of_getLsbD_eq; intro i hi
  simp only [cmdOp, BitVec.getLsbD_extractLsb', cmdWord_getLsbD, hi, decide_true, Bool.true_and]
  split_ifs <;> first | omega | (congr 1; omega)
@[simp] theorem cmdAux_cmdWord (op aux : BitVec 4) (p : Payload) : cmdAux (cmdWord op aux p) = aux := by
  apply BitVec.eq_of_getLsbD_eq; intro i hi
  simp only [cmdAux, BitVec.getLsbD_extractLsb', cmdWord_getLsbD, hi, decide_true, Bool.true_and]
  split_ifs <;> first | omega | (congr 1; omega)
@[simp] theorem cmdPayload_cmdWord (op aux : BitVec 4) (p : Payload) : cmdPayload (cmdWord op aux p) = p := by
  apply BitVec.eq_of_getLsbD_eq; intro i hi
  simp only [cmdPayload, BitVec.getLsbD_extractLsb', cmdWord_getLsbD, hi, decide_true, Bool.true_and]
  split_ifs <;> first | omega | (congr 1; omega)

/-- The fields determine the word. -/
theorem cmdWord_fields (w : CmdWord) : cmdWord (cmdOp w) (cmdAux w) (cmdPayload w) = w := by
  apply BitVec.eq_of_getLsbD_eq; intro i hi
  simp only [cmdWord_getLsbD, cmdOp, cmdAux, cmdPayload, BitVec.getLsbD_extractLsb']
  split_ifs
  · simp [*]
  · simp [*, show 32 + (i - 32) = i by omega]
  · simp [show i - 32 - 4 < 4 by omega, show 36 + (i - 32 - 4) = i by omega]

namespace Machine

theorem Rsp.word_getLsbD (r : Rsp) (i : Nat) : r.word.getLsbD i =
    if i < 32 then r.data.getLsbD i else if i - 32 < 2 then (0#2).getLsbD (i - 32)
    else if i - 32 - 2 < 3 then (BitVec.ofNat 3 r.cnt).getLsbD (i - 32 - 2)
    else if i - 32 - 2 - 3 < 1 then (BitVec.ofBool r.last).getLsbD (i - 32 - 2 - 3)
    else r.st.code.getLsbD (i - 32 - 2 - 3 - 1) := by
  rw [← getLsbD_concat (k := 3) rfl r.st.code, ← getLsbD_concat (k := 6) rfl _ (BitVec.ofNat 3 r.cnt),
    ← getLsbD_concat (k := 8) rfl _ (0#2), ← getLsbD_concat (k := 40) rfl _ r.data]; rfl

@[simp] theorem rspSt_word (r : Rsp) : rspSt r.word = r.st.code := by
  apply BitVec.eq_of_getLsbD_eq; intro i hi
  simp only [rspSt, BitVec.getLsbD_extractLsb', Rsp.word_getLsbD, hi, decide_true, Bool.true_and]
  split_ifs <;> first | omega | (congr 1; omega)
@[simp] theorem rspLast_word (r : Rsp) : rspLast r.word = r.last := by
  simp only [rspLast, Rsp.word_getLsbD]
  cases r.last <;> simp
theorem rspCnt_word (r : Rsp) (h : r.cnt < 8) : rspCnt r.word = r.cnt := by
  have : r.word.extractLsb' 34 3 = BitVec.ofNat 3 r.cnt := by
    apply BitVec.eq_of_getLsbD_eq; intro i hi
    simp only [BitVec.getLsbD_extractLsb', Rsp.word_getLsbD, hi, decide_true, Bool.true_and]
    split_ifs <;> first | omega | (congr 1; omega)
  simp [rspCnt, this]; omega
@[simp] theorem rspData_word (r : Rsp) : rspData r.word = r.data := by
  apply BitVec.eq_of_getLsbD_eq; intro i hi
  simp only [rspData, BitVec.getLsbD_extractLsb', Rsp.word_getLsbD, hi, decide_true, Bool.true_and]
  split_ifs <;> first | omega | (congr 1; omega)
@[simp] theorem reserved_word (r : Rsp) : r.word.extractLsb' 32 2 = 0#2 := by
  apply BitVec.eq_of_getLsbD_eq; intro i hi
  simp only [BitVec.getLsbD_extractLsb', Rsp.word_getLsbD, hi, decide_true, Bool.true_and]
  split_ifs <;> first | omega | (congr 1; omega)

theorem symbolData_eq_payloadOf (a b c d : Byte) : symbolData a b c d = payloadOf a b c d := rfl

/-- One bit of a field placed by zero extension and a left shift. -/
theorem getLsbD_placed {w : Nat} (x : BitVec w) (k lo i : Nat) (hi : i < k) :
    (x.setWidth k <<< lo).getLsbD i = (decide (lo ≤ i) && x.getLsbD (i - lo)) := by
  by_cases h : lo ≤ i
  · simp [h, hi, show ¬ i < lo by omega]
  · simp [h, show i < lo by omega]

theorem specCmd_eq_cmdWord (op aux : BitVec 4) (p : Payload) : specCmd op aux p = cmdWord op aux p := by
  apply BitVec.eq_of_getLsbD_eq; intro i hi
  simp only [specCmd, cmdWord_getLsbD, BitVec.getLsbD_or, getLsbD_placed _ _ _ _ hi, BitVec.getLsbD_setWidth, hi,
    decide_true, Bool.true_and]
  split_ifs
  · simp [show ¬ 36 ≤ i by omega, show ¬ 32 ≤ i by omega]
  · simp [show ¬ 36 ≤ i by omega, show 32 ≤ i by omega]
  · simp [show 36 ≤ i by omega, show 32 ≤ i by omega, BitVec.getLsbD_of_ge aux (i - 32) (by omega),
      show i - 32 - 4 = i - 36 by omega]

theorem specLanes_eq_payloadOf (a b c d : Byte) : specLanes a b c d = payloadOf a b c d := by
  apply BitVec.eq_of_getLsbD_eq; intro i hi
  simp only [specLanes, payloadOf_getLsbD, BitVec.getLsbD_or, getLsbD_placed _ _ _ _ hi, BitVec.getLsbD_setWidth, hi,
    decide_true, Bool.true_and]
  split_ifs
  · simp [show ¬ 24 ≤ i by omega, show ¬ 16 ≤ i by omega, show ¬ 8 ≤ i by omega]
  · simp [show ¬ 24 ≤ i by omega, show ¬ 16 ≤ i by omega, show 8 ≤ i by omega]
  · simp [show ¬ 24 ≤ i by omega, show 16 ≤ i by omega, show 8 ≤ i by omega, BitVec.getLsbD_of_ge c (i - 8) (by omega),
      show i - 8 - 8 = i - 16 by omega]
  · simp [show 24 ≤ i by omega, show 16 ≤ i by omega, show 8 ≤ i by omega, BitVec.getLsbD_of_ge c (i - 8) (by omega),
      BitVec.getLsbD_of_ge b (i - 16) (by omega), show i - 8 - 8 - 8 = i - 24 by omega]

/-- R43's formula is the response word. -/
theorem specRsp_eq_word (r : Rsp) :
    specRsp r.st.code (BitVec.ofBool r.last) (BitVec.ofNat 3 r.cnt) r.data = r.word := by
  apply BitVec.eq_of_getLsbD_eq; intro i hi
  simp only [specRsp, Rsp.word_getLsbD, BitVec.getLsbD_or, getLsbD_placed _ _ _ _ hi, BitVec.getLsbD_setWidth, hi,
    decide_true, Bool.true_and]
  have hd (h : 32 ≤ i) : r.data.getLsbD i = false := BitVec.getLsbD_of_ge _ _ h
  have hc (h : 37 ≤ i) : (BitVec.ofNat 3 r.cnt).getLsbD (i - 34) = false := BitVec.getLsbD_of_ge _ _ (by omega)
  have hl (h : 38 ≤ i) : (BitVec.ofBool r.last).getLsbD (i - 37) = false := BitVec.getLsbD_of_ge _ _ (by omega)
  split_ifs with h1 h2 h3 h4
  · simp [show ¬ 38 ≤ i by omega, show ¬ 37 ≤ i by omega, show ¬ 34 ≤ i by omega]
  · simp only [hd (by omega), show ¬ 38 ≤ i by omega, show ¬ 37 ≤ i by omega, show ¬ 34 ≤ i by omega]
    simp
  · simp only [hd (by omega), show ¬ 38 ≤ i by omega, show ¬ 37 ≤ i by omega, show 34 ≤ i by omega,
      show i - 32 - 2 = i - 34 by omega]
    simp only [decide_true, decide_false, Bool.false_and, Bool.true_and, Bool.false_or, Bool.or_false]
  · simp only [hd (by omega), hc (by omega), show ¬ 38 ≤ i by omega, show 37 ≤ i by omega, show 34 ≤ i by omega,
      show i - 32 - 2 - 3 = i - 37 by omega]
    simp only [decide_true, decide_false, Bool.false_and, Bool.true_and, Bool.false_or, Bool.or_false]
  · simp only [hd (by omega), hc (by omega), hl (by omega), show 38 ≤ i by omega, show 37 ≤ i by omega,
      show 34 ≤ i by omega, show i - 32 - 2 - 3 - 1 = i - 38 by omega]
    simp only [decide_true, Bool.true_and, Bool.or_false]

/-- R27's formula is the value ENC3 splits. -/
theorem specPack_eq_enc3Value (b0 b1 b2 : Byte) : specPack b0 b1 b2 = enc3Value b0 b1 b2 := by
  apply BitVec.eq_of_getLsbD_eq; intro i hi
  rw [show enc3Value b0 b1 b2 = (((b0 ++ b1).cast (rfl : 8 + 8 = 16)) ++ b2).cast (rfl : 16 + 8 = 24) from rfl,
    getLsbD_concat, getLsbD_concat]
  simp only [specPack, BitVec.getLsbD_or, getLsbD_placed _ _ _ _ hi, BitVec.getLsbD_setWidth, hi, decide_true,
    Bool.true_and]
  have h1 (h : 16 ≤ i) : b1.getLsbD (i - 8) = false := BitVec.getLsbD_of_ge _ _ (by omega)
  split_ifs
  · simp [show ¬ 16 ≤ i by omega, show ¬ 8 ≤ i by omega]
  · simp [show ¬ 16 ≤ i by omega, show 8 ≤ i by omega]
  · simp [h1 (by omega), show 16 ≤ i by omega, show 8 ≤ i by omega, show i - 8 - 8 = i - 16 by omega]

theorem enc2Value_eq_enc3Value (b0 b1 : Byte) : enc2Value b0 b1 = enc3Value b0 b1 0#8 := rfl

theorem enc1Value_eq_enc3Value (b0 : Byte) : enc1Value b0 = enc3Value b0 0#8 0#8 := by
  apply BitVec.eq_of_getLsbD_eq; intro i hi
  rw [show enc3Value b0 0#8 0#8 = (((b0 ++ 0#8).cast (rfl : 8 + 8 = 16)) ++ 0#8).cast (rfl : 16 + 8 = 24) from rfl,
    show enc1Value b0 = (b0 ++ 0#16).cast (rfl : 8 + 16 = 24) from rfl, getLsbD_concat, getLsbD_concat, getLsbD_concat]
  by_cases h : i < 16
  · by_cases h' : i < 8
    · simp [h, h']
    · simp [h, h', show i - 8 < 8 by omega]
  · simp [h, show ¬ i < 8 by omega, show ¬ i - 8 < 8 by omega, show i - 8 - 8 = i - 16 by omega]

/-- The bits of an unpacked group, index by index. -/
theorem unpack_getLsbD (i0 i1 i2 i3 : Sextet) (i : Nat) : (unpack i0 i1 i2 i3).getLsbD i =
    if i < 6 then i3.getLsbD i else if i - 6 < 6 then i2.getLsbD (i - 6)
    else if i - 6 - 6 < 6 then i1.getLsbD (i - 6 - 6) else i0.getLsbD (i - 6 - 6 - 6) := by
  rw [← getLsbD_concat (k := 12) rfl i0 i1, ← getLsbD_concat (k := 18) rfl _ i2, ← getLsbD_concat (k := 24) rfl _ i3]
  rfl

/-- R29's formula is the unpacked group. -/
theorem specUnpack_eq_unpack (i0 i1 i2 i3 : Sextet) : specUnpack i0 i1 i2 i3 = unpack i0 i1 i2 i3 := by
  apply BitVec.eq_of_getLsbD_eq; intro i hi
  simp only [specUnpack, unpack_getLsbD, BitVec.getLsbD_or, getLsbD_placed _ _ _ _ hi, BitVec.getLsbD_setWidth, hi,
    decide_true, Bool.true_and]
  have h2 (h : 12 ≤ i) : i2.getLsbD (i - 6) = false := BitVec.getLsbD_of_ge _ _ (by omega)
  have h1 (h : 18 ≤ i) : i1.getLsbD (i - 12) = false := BitVec.getLsbD_of_ge _ _ (by omega)
  split_ifs
  · simp [show ¬ 18 ≤ i by omega, show ¬ 12 ≤ i by omega, show ¬ 6 ≤ i by omega]
  · simp [show ¬ 18 ≤ i by omega, show ¬ 12 ≤ i by omega, show 6 ≤ i by omega]
  · simp [h2 (by omega), show ¬ 18 ≤ i by omega, show 12 ≤ i by omega, show 6 ≤ i by omega,
      show i - 6 - 6 = i - 12 by omega]
  · simp [h2 (by omega), h1 (by omega), show 18 ≤ i by omega, show 12 ≤ i by omega,
      show 6 ≤ i by omega, show i - 6 - 6 - 6 = i - 18 by omega]

/-- A shift and a mask read a field of a group. -/
theorem specField_eq (v : Group) (lo : Nat) : specField v lo = v.extractLsb' lo 6 := by
  apply BitVec.eq_of_getLsbD_eq; intro i hi
  simp only [specField, BitVec.getLsbD_setWidth, BitVec.getLsbD_and, BitVec.getLsbD_ushiftRight,
    BitVec.getLsbD_extractLsb', hi, decide_true, Bool.true_and]
  have : (0x3F#24).getLsbD i = true := by
    obtain rfl | rfl | rfl | rfl | rfl | rfl : i = 0 ∨ i = 1 ∨ i = 2 ∨ i = 3 ∨ i = 4 ∨ i = 5 := by omega
    all_goals rfl
  rw [this, Bool.and_true]

end Machine

end Sys2Proof
end

