-- ==== Sys2Proof/Laws/State.lean ====
section
/-! SUPPORT. One lemma per field of State and per update of it. -/

namespace Sys2Proof.Machine

variable (s : State)

@[simp] theorem State.reset_decErr : State.reset.decErr = false := rfl
@[simp] theorem State.reset_rspValid : State.reset.rspValid = false := rfl
@[simp] theorem State.reset_rspQ : State.reset.rspQ = 0#40 := rfl
@[simp] theorem State.reset_inputs : State.reset.inputs = [] := rfl

@[simp] theorem State.dropPins_decErr : s.dropPins.decErr = s.decErr := rfl
@[simp] theorem State.dropPins_rspValid : s.dropPins.rspValid = s.rspValid := rfl
@[simp] theorem State.dropPins_rspQ : s.dropPins.rspQ = s.rspQ := rfl
@[simp] theorem State.dropPins_inputs : s.dropPins.inputs = s.inputs.tail := rfl

@[simp] theorem State.takeResponse_decErr (b : Bool) : (s.takeResponse b).decErr = s.decErr := rfl
@[simp] theorem State.takeResponse_rspValid (b : Bool) : (s.takeResponse b).rspValid = (s.rspValid && !b) := rfl
@[simp] theorem State.takeResponse_rspQ (b : Bool) : (s.takeResponse b).rspQ = s.rspQ := rfl
@[simp] theorem State.takeResponse_inputs (b : Bool) : (s.takeResponse b).inputs = s.inputs := rfl

@[simp] theorem State.resetRegs_decErr : s.resetRegs.decErr = false := rfl
@[simp] theorem State.resetRegs_rspValid : s.resetRegs.rspValid = false := rfl
@[simp] theorem State.resetRegs_rspQ : s.resetRegs.rspQ = 0#40 := rfl
@[simp] theorem State.resetRegs_inputs : s.resetRegs.inputs = s.inputs := rfl

@[simp] theorem State.complete_respond (r : Rsp) (e : Bool) :
    s.complete (respond r e) = { s with decErr := e, rspValid := true, rspQ := r.word } := rfl
@[simp] theorem State.complete_noResponse (e : Bool) : s.complete (noResponse e) = { s with decErr := e } := rfl

@[simp] theorem State.complete_decErr (r : CmdResult) : (s.complete r).decErr = r.decErr := by
  rcases r with ⟨_ | _, _⟩ <;> rfl
@[simp] theorem State.complete_rspValid (r : CmdResult) : (s.complete r).rspValid = (s.rspValid || r.rsp.isSome) := by
  rcases r with ⟨_ | _, _⟩ <;> simp [State.complete]
@[simp] theorem State.complete_rspQ (r : CmdResult) : (s.complete r).rspQ = r.rsp.getD s.rspQ := by
  rcases r with ⟨_ | _, _⟩ <;> rfl
@[simp] theorem State.complete_inputs (r : CmdResult) : (s.complete r).inputs = s.inputs := by
  rcases r with ⟨_ | _, _⟩ <;> rfl

@[simp] theorem respond_rsp (r : Rsp) (e : Bool) : (respond r e).rsp = some r.word := rfl
@[simp] theorem respond_decErr (r : Rsp) (e : Bool) : (respond r e).decErr = e := rfl
@[simp] theorem noResponse_rsp (e : Bool) : (noResponse e).rsp = none := rfl
@[simp] theorem noResponse_decErr (e : Bool) : (noResponse e).decErr = e := rfl

@[simp] theorem State.pins_cons (p : Pins) (ps : List Pins) (h : s.inputs = p :: ps) : s.pins = p := by
  simp [State.pins, h]
@[simp] theorem State.pins_nil (h : s.inputs = []) : s.pins = Pins.idle := by
  simp [State.pins, h]

end Sys2Proof.Machine
end

