-- ==== Sys2Proof/Laws/Ops.lean ====
section
/-! SUPPORT. What each shared operation can answer. -/

namespace Sys2Proof.Machine

/-- A class is `SYM` exactly when it carries an index. -/
theorem CodeClass.isSym_iff (k : CodeClass) : k.isSym = true ↔ ∃ i, k = .sym i := by
  cases k <;> simp [CodeClass.isSym]

@[simp] theorem CodeClass.isSym_sym (i : Sextet) : (CodeClass.sym i).isSym = true := rfl
@[simp] theorem CodeClass.isSym_pad : CodeClass.pad.isSym = false := rfl
@[simp] theorem CodeClass.isSym_bad : CodeClass.bad.isSym = false := rfl
@[simp] theorem CodeClass.index_sym (i : Sextet) : (CodeClass.sym i).index = i := rfl
@[simp] theorem CodeClass.index_pad : CodeClass.pad.index = 0#6 := rfl

/-- A valid final group has one of three forms. -/
theorem padValid_cases {k0 k1 k2 k3 : CodeClass} {p : Nat} (h : padValid k0 k1 k2 k3 = some p) :
    ∃ i0 i1, k0 = .sym i0 ∧ k1 = .sym i1 ∧
      ((∃ i2 i3, k2 = .sym i2 ∧ k3 = .sym i3 ∧ p = 0) ∨ (∃ i2, k2 = .sym i2 ∧ k3 = .pad ∧ p = 1) ∨
        (k2 = .pad ∧ k3 = .pad ∧ p = 2)) := by
  unfold padValid at h
  split at h <;> simp_all

/-- No `BAD` code reaches the unpacker from a valid final group, so `CodeClass.index` of `BAD` is never used (log entry 5). -/
theorem padValid_not_bad {k0 k1 k2 k3 : CodeClass} {p : Nat} (h : padValid k0 k1 k2 k3 = some p) :
    k0 ≠ .bad ∧ k1 ≠ .bad ∧ k2 ≠ .bad ∧ k3 ≠ .bad := by
  obtain ⟨i0, i1, rfl, rfl, ⟨i2, i3, rfl, rfl, -⟩ | ⟨i2, rfl, rfl, -⟩ | ⟨rfl, rfl, -⟩⟩ := padValid_cases h <;> simp

theorem padValid_le_two {k0 k1 k2 k3 : CodeClass} {p : Nat} (h : padValid k0 k1 k2 k3 = some p) : p ≤ 2 := by
  obtain ⟨i0, i1, -, -, ⟨i2, i3, -, -, rfl⟩ | ⟨i2, -, -, rfl⟩ | ⟨-, -, rfl⟩⟩ := padValid_cases h <;> decide

/-- An edge does one of three things, each under its own pins. -/
theorem State.edgeAction_cases (s : State) (p : Pins) :
    (p.rst = true ∧ s.edgeAction p = .reset) ∨
    (p.rst = false ∧ p.cmdValid = true ∧ (s.rspValid = false ∨ p.rspReady = true) ∧ s.edgeAction p = .accept p.cmd) ∨
    (p.rst = false ∧ (p.cmdValid = false ∨ (s.rspValid = true ∧ p.rspReady = false)) ∧ s.edgeAction p = .hold) := by
  obtain ⟨rst, v, c, rdy⟩ := p
  obtain ⟨e, rv, q, ins⟩ := s
  cases rst <;> cases v <;> cases rdy <;> cases rv <;> simp [State.edgeAction, State.cmdReady]

/-- At an accepting edge the register is free when the command runs: what waited has been taken. -/
theorem State.takeResponse_free (s : State) {b : Bool} (h : s.rspValid = false ∨ b = true) :
    (s.takeResponse b).rspValid = false := by
  rcases h with h | h <;> simp [h]

end Sys2Proof.Machine
end

