-- ==== Sys2Proof/Laws/PerInstr.lean ====
section
/-! SUPPORT. What holds of every command as syntax, one lemma per constructor. -/

namespace Sys2Proof.Laws

/-- The `op` of the row of the opcode table a command belongs to (R40); an illegal word has its own. -/
def rowOp : Instr → BitVec 4
  | .nop _ => 0x0#4
  | .enc3 _ _ _ _ => 0x1#4
  | .enc2 _ _ _ _ => 0x2#4
  | .enc1 _ _ _ => 0x3#4
  | .dec _ _ _ _ => 0x4#4
  | .decf _ _ _ _ _ => 0x5#4
  | .illegal op _ _ => op

/-- The row is not ILLEGAL. -/
def rowLegal : Instr → Bool
  | .nop _ => true
  | .enc3 _ _ _ _ => true
  | .enc2 _ _ _ _ => true
  | .enc1 _ _ _ => true
  | .dec _ _ _ _ => true
  | .decf _ _ _ _ _ => true
  | .illegal _ _ _ => false

/-- The word of a well-formed command lies in its own row: it has the row's `op`, and it is legal exactly when the row is
not ILLEGAL (R40, R41). -/
def TableRow.Statement (i : Instr) : Prop :=
  i.wellFormed = true →
    cmdOp (encode i) = rowOp i ∧ legal (cmdOp (encode i)) (cmdAux (encode i)) = rowLegal i

theorem TableRow.nop (ign : Payload) : TableRow.Statement (.nop ign) := by
  intro _; simp [encode, rowOp, rowLegal, legal]
theorem TableRow.enc3 (ign b0 b1 b2 : Byte) : TableRow.Statement (.enc3 ign b0 b1 b2) := by
  intro _; simp [encode, rowOp, rowLegal, legal]
theorem TableRow.enc2 (ignHi b0 b1 ignLo : Byte) : TableRow.Statement (.enc2 ignHi b0 b1 ignLo) := by
  intro _; simp [encode, rowOp, rowLegal, legal]
theorem TableRow.enc1 (ignHi b0 : Byte) (ignLo : BitVec 16) : TableRow.Statement (.enc1 ignHi b0 ignLo) := by
  intro _; simp [encode, rowOp, rowLegal, legal]
theorem TableRow.dec (c0 c1 c2 c3 : Byte) : TableRow.Statement (.dec c0 c1 c2 c3) := by
  intro _; simp [encode, rowOp, rowLegal, legal]
theorem TableRow.decf (n : Nat) (c0 c1 c2 c3 : Byte) : TableRow.Statement (.decf n c0 c1 c2 c3) := by
  intro h
  have h4 : n ≤ 4 := of_decide_eq_true h
  obtain rfl | rfl | rfl | rfl | rfl : n = 0 ∨ n = 1 ∨ n = 2 ∨ n = 3 ∨ n = 4 := by omega
  all_goals simp [encode, rowOp, rowLegal, legal]
theorem TableRow.illegal (op aux : BitVec 4) (ign : Payload) : TableRow.Statement (.illegal op aux ign) := by
  intro h
  have hl : ∀ op aux : BitVec 4, illegalFields op aux = true → legal op aux = false := by decide
  simp [encode, rowOp, rowLegal, hl op aux h]

end Sys2Proof.Laws
end

