-- ==== Sys2Proof/Laws/Step.lean ====
section
/-! SUPPORT. What a step can do, said once. -/

namespace Sys2Proof.Machine

/-- A step that answers a next state is a reset, the run of the accepted command after the waiting response was taken,
or the taking alone. -/
theorem step_cases {s t : State} (h : step s = .next t) :
    (s.pins.rst = true ∧ t = s.dropPins.resetRegs) ∨
    (s.pins.rst = false ∧ s.pins.cmdValid = true ∧ (s.rspValid = false ∨ s.pins.rspReady = true) ∧
      exec (decode s.pins.cmd) (s.dropPins.takeResponse s.pins.rspReady) = .next t) ∨
    (s.pins.rst = false ∧ (s.pins.cmdValid = false ∨ (s.rspValid = true ∧ s.pins.rspReady = false)) ∧
      t = s.dropPins.takeResponse s.pins.rspReady) := by
  unfold step at h
  rcases s.edgeAction_cases s.pins with ⟨hr, ha⟩ | ⟨hr, hv, hf, ha⟩ | ⟨hr, hn, ha⟩ <;> rw [ha] at h
  · exact .inl ⟨hr, (Host.Outcome.next.inj h).symm⟩
  · exact .inr (.inl ⟨hr, hv, hf, h⟩)
  · exact .inr (.inr ⟨hr, hn, (Host.Outcome.next.inj h).symm⟩)

/-- Every meaning is one completion of one result: what it leaves alone is what `State.complete` leaves alone. -/
theorem exec_complete (i : Instr) (s : State) : ∃ r, exec i s = .next (s.complete r) := by
  cases i <;> exact ⟨_, rfl⟩

end Sys2Proof.Machine
end

