-- ==== Sys2Proof/Tests/Slice0.lean ====
section
/-! SUPPORT. The model's own tests. Expected words are those of spec/95_test_vectors.md and of the rules' worked examples,
or are written out bit by bit from the tables of spec/30_encoding.md. At the end, a witness for the hypotheses of each
statement. -/

namespace Sys2Proof.Tests

open Sys2Proof.Machine

/-! ### Well-formedness: each check refuses an ill-formed term -/

theorem test_decf_count_five_ill_formed : (Instr.decf 5 0#8 0#8 0#8 0#8).wellFormed = false := by decide
theorem test_decf_count_four_well_formed : (Instr.decf 4 0#8 0#8 0#8 0#8).wellFormed = true := by decide
theorem test_illegal_with_nop_fields_ill_formed : (Instr.illegal 0#4 0#4 0#32).wellFormed = false := by decide
theorem test_illegal_with_dec_fields_ill_formed : (Instr.illegal 4#4 0#4 0#32).wellFormed = false := by decide
theorem test_illegal_with_decf_fields_ill_formed : (Instr.illegal 5#4 4#4 0#32).wellFormed = false := by decide
theorem test_illegal_aux_well_formed : (Instr.illegal 4#4 1#4 0#32).wellFormed = true := by decide
theorem test_illegal_decf_five_well_formed : (Instr.illegal 5#4 5#4 0#32).wellFormed = true := by decide
theorem test_illegal_op_well_formed : (Instr.illegal 6#4 0#4 0#32).wellFormed = true := by decide

/-! ### Decoding: words written out as `op` (4 bits), `aux` (4), lanes (4 × 8), by the tables of R38 and R40 -/

theorem test_decode_nop : decode (0b0000_0000_00010010_00110100_01010110_01111000#40) = .nop 0x12345678#32 := by decide
theorem test_decode_enc3 :
    decode (0b0001_0000_11111111_01001101_01100001_01101110#40) = .enc3 0xFF#8 0x4D#8 0x61#8 0x6E#8 := by decide
theorem test_decode_enc2 :
    decode (0b0010_0000_00000001_01001101_01100001_11111111#40) = .enc2 0x01#8 0x4D#8 0x61#8 0xFF#8 := by decide
theorem test_decode_enc1 :
    decode (0b0011_0000_00000001_01001101_11111111_00000010#40) = .enc1 0x01#8 0x4D#8 0xFF02#16 := by decide
theorem test_decode_dec :
    decode (0b0100_0000_01010110_01000111_01010110_01111010#40) = .dec 0x56#8 0x47#8 0x56#8 0x7A#8 := by decide
theorem test_decode_decf :
    decode (0b0101_0100_01100100_01000001_00111101_00111101#40) = .decf 4 0x64#8 0x41#8 0x3D#8 0x3D#8 := by decide
theorem test_decode_illegal_op :
    decode (0b0110_0000_00000000_00000000_00000000_00000001#40) = .illegal 6#4 0#4 1#32 := by decide
theorem test_decode_illegal_aux :
    decode (0b0100_0010_01010100_01010111_01000110_01110101#40) = .illegal 4#4 2#4 0x54574675#32 := by decide
theorem test_encode_assembler_man : encode (asmEnc3 0x4D#8 0x61#8 0x6E#8) = 0x10004D616E#40 := by decide
theorem test_encode_assembler_decf3 : encode (asmDecf [0x54#8, 0x57#8, 0x46#8]) = 0x5354574600#40 := by decide
theorem test_table_word : decodeTableWord 40 0x4000000000 = some (.dec 0#8 0#8 0#8 0#8) := by decide
theorem test_table_word_too_wide : decodeTableWord 40 0x10000000000 = none := by decide

/-! ### Alphabet and lookup (95_test_vectors.md section 3.1) -/

theorem test_alpha_plus_slash : alpha 62#6 = 0x2B#8 ∧ alpha 63#6 = 0x2F#8 ∧ alpha 52#6 = 0x30#8 := by decide
theorem test_class_boundaries :
    [0x2A#8, 0x2B#8, 0x2F#8, 0x30#8, 0x39#8, 0x3A#8, 0x3D#8, 0x40#8, 0x41#8, 0x5A#8, 0x5B#8, 0x60#8, 0x61#8, 0x7A#8,
      0x7B#8, 0x80#8].map classify =
    [.bad, .sym 62#6, .sym 63#6, .sym 52#6, .sym 61#6, .bad, .pad, .bad, .sym 0#6, .sym 25#6, .bad, .bad, .sym 26#6,
      .sym 51#6, .bad, .bad] := by decide

/-! ### One step from a small state: `dec_err` before, the word, and then `rsp_valid`, `rsp_q` and `dec_err`
(95_test_vectors.md sections 3.2 to 3.5) -/

/-- `dec_err`, and one command word presented at the next edge. -/
def given (e : Bool) (w : Nat) : State := ({ State.reset with decErr := e } : State).withFetchWord 40 w

/-- `rsp_valid`, `rsp_q` and `dec_err` of the next state. -/
def after (s : State) : Option (Bool × RspWord × Bool) := (nextState? (step s)).map fun t => (t.rspValid, t.rspQ, t.decErr)

theorem test_enc3_symbols_past_z : after (given true 0x1000FBEF00) = some (true, 0x102B2B3841#40, true) := by decide
theorem test_enc3_ignores_top_lane : after (given false 0x10FF4D616E) = some (true, 0x1054574675#40, false) := by decide
theorem test_enc2_ignores_low_lane : after (given false 0x20004D61FF) = some (true, 0x105457453D#40, false) := by decide
theorem test_enc2_low_bits : after (given false 0x2000000F00) = some (true, 0x104141383D#40, false) := by decide
theorem test_enc1_low_bits : after (given false 0x3000030000) = some (true, 0x1041773D3D#40, false) := by decide
theorem test_enc1_ignores_low_lanes : after (given true 0x30004DFFFF) = some (true, 0x1054513D3D#40, true) := by decide
theorem test_dec_digits : after (given false 0x4030313839) = some (true, 0x0C00D35F3D#40, false) := by decide
theorem test_dec_bad_group_sets_error : after (given false 0x405457460A) = some (true, 0#40, true) := by decide
theorem test_decf_final_group_pads :
    after (given false 0x545457463D) = some (true, 0x28004D6100#40, false) ∧
      after (given false 0x5441423D43) = some (true, 0xA000000000#40, false) := by decide
theorem test_decf_length_first_then_pending_error :
    after (given true 0x5354574624) = some (true, 0x6000000000#40, false) ∧
      after (given true 0x5000000000) = some (true, 0xA000000000#40, false) := by decide
theorem test_nop_no_response : after (given true 0x0012345678) = some (false, 0#40, true) := by decide
theorem test_illegal_keeps_error : after (given true 0x5500000000) = some (true, 0xC000000000#40, true) := by decide

/-! ### Edges -/

theorem test_reset_edge_drops_response :
    nextState? (step { decErr := true, rspValid := true, rspQ := 7#40, inputs := [⟨true, true, 0x10004D616E#40, true⟩] }) =
      some State.reset := by decide
theorem test_waiting_response_blocks_command :
    nextState? (step { decErr := false, rspValid := true, rspQ := 7#40, inputs := [⟨false, true, 0x10004D616E#40, false⟩] }) =
      some { decErr := false, rspValid := true, rspQ := 7#40, inputs := [] } := by decide
theorem test_take_and_accept_at_one_edge :
    nextState? (step { decErr := false, rspValid := true, rspQ := 7#40, inputs := [⟨false, true, 0x30004D0000#40, true⟩] }) =
      some { decErr := false, rspValid := true, rspQ := 0x1054513D3D#40, inputs := [] } := by decide
theorem test_take_with_nop :
    nextState? (step { decErr := false, rspValid := true, rspQ := 7#40, inputs := [⟨false, true, 0#40, true⟩] }) =
      some { decErr := false, rspValid := false, rspQ := 7#40, inputs := [] } := by decide

/-! ### Messages (95_test_vectors.md sections 1.1, 3.6 and 4) -/

/-- The outcome of `Decode`, comparable by `decide`. -/
def decoded (t : List Byte) : Option (List Byte) × Option MsgError :=
  match decodeMsg t with
  | .ok b => (some b, none)
  | .error e => (none, some e)

theorem test_encode_hello :
    encodeMsg [0x48#8, 0x65#8, 0x6C#8, 0x6C#8, 0x6F#8] = [0x53#8, 0x47#8, 0x56#8, 0x73#8, 0x62#8, 0x47#8, 0x38#8, 0x3D#8] := by
  decide
theorem test_decode_test :
    decoded [0x56#8, 0x47#8, 0x56#8, 0x7A#8, 0x64#8, 0x41#8, 0x3D#8, 0x3D#8] =
      (some [0x54#8, 0x65#8, 0x73#8, 0x74#8], none) := by decide
theorem test_decode_length_before_symbol :
    decoded [0x54#8, 0x57#8, 0x46#8, 0x24#8, 0x54#8, 0x51#8, 0x3D#8] = (none, some .invalidLength) := by decide
theorem test_decode_pad_in_first_group :
    decoded [0x54#8, 0x51#8, 0x3D#8, 0x3D#8, 0x54#8, 0x57#8, 0x46#8, 0x75#8] = (none, some .invalidSymbol) := by decide
theorem test_frame_test :
    (decFrame [0x56#8, 0x47#8, 0x56#8, 0x7A#8, 0x64#8, 0x41#8, 0x3D#8, 0x3D#8]).map encode =
      [0x405647567A#40, 0x5464413D3D#40] := by decide
theorem test_frame_length_error :
    (decFrame [0x54#8, 0x57#8, 0x46#8, 0x24#8, 0x54#8, 0x51#8, 0x3D#8]).map encode = [0x4054574624#40, 0x5354513D00#40] := by
  decide

/-! ### Witnesses: what each statement assumes can be met, each clause at a boundary of its range -/

theorem witness_DecodeUndoesEncode :
    (Instr.decf 4 0#8 0#8 0#8 0#8).wellFormed = true ∧ (Instr.decf 0 0#8 0#8 0#8 0#8).wellFormed = true ∧
      (Instr.illegal 5#4 5#4 0#32).wellFormed = true ∧ (Instr.illegal 15#4 15#4 0#32).wellFormed = true := by decide
theorem witness_EncodeUndoesDecode : ∃ i : Instr, i.wellFormed = true ∧ encode i = 0x5464413D3D#40 :=
  ⟨.decf 4 0x64#8 0x41#8 0x3D#8 0x3D#8, by decide⟩
theorem witness_LegalOpAndAux_legal :
    ((4#4).toNat ≤ 4 ∧ (0#4).toNat = 0) ∧ ((5#4).toNat = 5 ∧ (4#4).toNat ≤ 4) := by decide
theorem witness_LegalOpAndAux_illegal :
    ¬(((5#4).toNat ≤ 4 ∧ (5#4).toNat = 0) ∨ ((5#4).toNat = 5 ∧ (5#4).toNat ≤ 4)) ∧
      ¬(((0#4).toNat ≤ 4 ∧ (1#4).toNat = 0) ∨ ((0#4).toNat = 5 ∧ (1#4).toNat ≤ 4)) := by decide
theorem witness_OperandsFromPayload_ignored :
    legal 5#4 1#4 = true ∧ 0x41000000#32 ≠ 0x41FFFFFF#32 ∧
      0x41000000#32 &&& usedPayload 5#4 1#4 = 0x41FFFFFF#32 &&& usedPayload 5#4 1#4 := by decide
theorem witness_OperandsFromPayload_count : (0 : Nat) ≤ 4 ∧ (4 : Nat) ≤ 4 := by decide
theorem witness_ClassOfEveryCode :
    (0x41 ≤ (0x5A#8).toNat ∧ (0x5A#8).toNat ≤ 0x5A) ∧ (0x61 ≤ (0x61#8).toNat ∧ (0x7A#8).toNat ≤ 0x7A) ∧
      (0x30 ≤ (0x30#8).toNat ∧ (0x39#8).toNat ≤ 0x39) ∧ (0x2B#8).toNat = 0x2B ∧ (0x2F#8).toNat = 0x2F ∧
      (0x3D#8).toNat = 0x3D ∧ ¬(0x41 ≤ (0x40#8).toNat ∧ (0x40#8).toNat ≤ 0x5A) ∧ (0x40#8).toNat ≠ 0x3D := by decide
theorem witness_Enc3EncodesThreeBytes : (1#4 : BitVec 4) ≠ 0#4 := by decide
theorem witness_DecDecodesAGroup_good :
    State.reset.decErr = false ∧ classify 0x54#8 = .sym 19#6 ∧ classify 0x2F#8 = .sym 63#6 ∧ classify 0x41#8 = .sym 0#6 ∧
      classify 0x75#8 = .sym 46#6 := by decide
theorem witness_DecDecodesAGroup_bad : ¬∃ i, classify 0x24#8 = .sym i := by
  rw [show classify 0x24#8 = .bad by decide]; simp
theorem witness_DecDecodesAGroup_error : ({ State.reset with decErr := true } : State).decErr = true := rfl
theorem witness_DecfClosesTheMessage_count : (1 : Nat) ≤ 3 ∧ (3 : Nat) ≤ 3 ∧ 4 < (5#4).toNat := by decide
theorem witness_DecfClosesTheMessage_groups :
    State.reset.decErr = false ∧ classify 0x64#8 = .sym 29#6 ∧ classify 0x41#8 = .sym 0#6 ∧ classify 0x3D#8 = .pad ∧
      padValid (classify 0x41#8) (classify 0x42#8) (classify 0x3D#8) (classify 0x43#8) = none := by decide
theorem witness_DiscardedBitsAccepted :
    classify 0x51#8 = .sym 16#6 ∧ classify 0x52#8 = .sym 17#6 ∧ 16#6 >>> 4 = 17#6 >>> 4 ∧ classify 0x45#8 = .sym 4#6 ∧
      classify 0x46#8 = .sym 5#6 ∧ 4#6 >>> 2 = 5#6 >>> 2 ∧ classify 0x54#8 = .sym 19#6 ∧ State.reset.decErr = false := by decide
theorem witness_NopDoesNothing :
    ∃ (s : State) (q : Pins) (rest : List Pins) (p : Payload),
      s.inputs = q :: rest ∧ q.rst = false ∧ q.cmd = specCmd 0#4 0#4 p ∧ s.rspValid = true ∧ (15#4 : BitVec 4) ≠ 0#4 :=
  ⟨⟨true, true, 7#40, [⟨false, true, 0x0012345678#40, true⟩]⟩, _, _, 0x12345678#32, rfl, rfl, by decide, rfl, by decide⟩
theorem witness_IllegalWordAnswersItsStatus :
    6 ≤ (6#4).toNat ∧ ((4#4).toNat ≤ 4 ∧ (15#4).toNat ≠ 0) ∧ ((5#4).toNat = 5 ∧ 5 ≤ (5#4).toNat) := by decide
theorem witness_DecErrFollowsItsRule :
    (Instr.decf 4 0#8 0#8 0#8 0#8).wellFormed = true ∧ ({ State.reset with decErr := true } : State).decErr = true := by decide
theorem witness_DecErrHiddenFromOtherCommands :
    ∃ i : Instr, (∀ c0 c1 c2 c3, i ≠ .dec c0 c1 c2 c3) ∧ ∀ n c0 c1 c2 c3, i ≠ .decf n c0 c1 c2 c3 :=
  ⟨.enc3 0#8 0#8 0#8 0#8, by simp, by simp⟩
theorem witness_ErrorKindsAndWhoRaisesThem :
    (Instr.decf 3 0#8 0#8 0#8 0#8).wellFormed = true ∧ State.reset.rspValid = false := by decide
theorem witness_ExecIsAFunctionOfWordAndDecErr : legal 4#4 0#4 = true ∧ legal 5#4 4#4 = true := by decide

/-- One edge presenting an ENC3 to a block that holds a response. -/
def busy (ready : Bool) : State :=
  { decErr := true, rspValid := true, rspQ := 0x2000000000#40, inputs := [⟨false, true, 0x10004D616E#40, ready⟩] }

theorem witness_StepRunsTheDecodedCommand :
    ∃ (p : Pins) (rest : List Pins) (i : Instr), (busy true).inputs = p :: rest ∧ p.rst = false ∧ p.cmdValid = true ∧
      ((busy true).rspValid = false ∨ p.rspReady = true) ∧ decode p.cmd = i ∧ i.wellFormed = true :=
  ⟨_, _, .enc3 0#8 0x4D#8 0x61#8 0x6E#8, rfl, rfl, rfl, .inr rfl, by decide, by decide⟩
theorem witness_EdgeFollowsThePseudocode :
    ∃ (p : Pins) (rest : List Pins), (busy false).inputs = p :: rest ∧ (busy false).cmdReady p = false :=
  ⟨_, _, rfl, by decide⟩
theorem witness_ResetEdgeReachesReset :
    ∃ (s : State) (p : Pins) (rest : List Pins), s.inputs = p :: rest ∧ p.rst = true ∧ s ≠ State.reset :=
  ⟨⟨true, true, 7#40, [⟨true, true, 0#40, true⟩]⟩, _, _, rfl, rfl, by decide⟩
theorem witness_ResetValues : ∃ p q : Pins, p.rst = true ∧ q.rst = false := ⟨⟨true, false, 0#40, false⟩, Pins.idle, rfl, rfl⟩
theorem witness_AcceptanceAndNoLostResponse :
    ∃ (p : Pins) (rest : List Pins), (busy false).inputs = p :: rest ∧ (busy false).rspValid = true ∧ p.rst = false ∧
      p.rspReady = false := ⟨_, _, rfl, rfl, rfl, rfl⟩
theorem witness_UntakenResponseStalls :
    (busy false).rspValid = true ∧ 1 ≤ (busy false).inputs.length ∧ ∀ p ∈ (busy false).inputs.take 1, p.rst = false ∧ p.rspReady = false := by decide
theorem witness_ResponseAfterLatency :
    ∃ (p : Pins) (rest : List Pins) (r : RspWord), (busy true).inputs = p :: rest ∧ p.rst = false ∧ p.cmdValid = true ∧
      ((busy true).rspValid = false ∨ p.rspReady = true) ∧ (execWord p.cmd (busy true).decErr).rsp = some r :=
  ⟨_, _, 0x1054574675#40, rfl, rfl, rfl, .inr rfl, by decide⟩
theorem witness_FullRateRun :
    ∃ (cs : List CmdWord) (s : State), cs ≠ [] ∧ s.rspValid = false ∧
      s.inputs = cs.map Pins.present ++ [{ rst := false, cmdValid := false, cmd := 0#40, rspReady := true }] :=
  ⟨[0x405647567A#40, 0x5464413D3D#40],
    { State.reset with inputs := [Pins.present 0x405647567A#40, Pins.present 0x5464413D3D#40, ⟨false, false, 0#40, true⟩] },
    by decide, rfl, rfl⟩
theorem witness_CommandsRunInOrder : (busy true).noReset 1 ∧ acceptedIn 1 (busy true) = [0x10004D616E#40] := by
  refine ⟨?_, by decide⟩; unfold State.noReset; decide
theorem witness_ResponseShapeKept : (busy true).RspOk ∧ (nextState? (step (busy true))).isSome = true := by
  refine ⟨?_, by decide⟩; unfold State.RspOk; decide
theorem witness_WaitingResponseTellsDecErr :
    ∃ s : State, s.rspValid = true ∧ s.DecErrTold ∧ (nextState? (step s)).isSome = true :=
  ⟨⟨true, true, 0#40, [⟨false, true, 0x405647567A#40, true⟩]⟩, rfl, fun _ => by decide, by decide⟩
theorem witness_DecodeFollowsItsLoop_error :
    ([0x3D#8, 0x41#8, 0x41#8, 0x41#8, 0x41#8, 0x41#8, 0x41#8, 0x41#8] : List Byte).length % 4 = 0 ∧
      (classify 0x3D#8).isSym = false ∧
      padValid (classify 0x41#8) (classify 0x3D#8) (classify 0x3D#8) (classify 0x3D#8) = none := by decide
theorem witness_DecodeFollowsItsLoop_ok :
    (∀ j, j + 4 < 4 → (classify (([0x64#8, 0x41#8, 0x3D#8, 0x3D#8] : List Byte).getD j 0#8)).isSym = true) ∧
      padValid (classify 0x64#8) (classify 0x41#8) (classify 0x3D#8) (classify 0x3D#8) = some 2 :=
  ⟨fun j h => absurd h (by omega), by decide⟩
theorem witness_DecodeFraming :
    ([] : List Byte).length = 0 ∧ 0 < ([0#8, 0#8, 0#8, 0#8] : List Byte).length ∧
      ([0#8, 0#8, 0#8, 0#8] : List Byte).length % 4 = 0 ∧ ([0#8] : List Byte).length % 4 ≠ 0 := by decide

/-- A stalled host: no command at the first edge, one at the next, its response left waiting. -/
def stalled (w : CmdWord) : State :=
  { State.reset with inputs := [Pins.idle, ⟨false, true, w, false⟩, ⟨false, true, w, false⟩] }

theorem witness_BlockComputesEncode :
    (stalled 0x30004D0000#40).noReset 3 ∧ (stalled 0x30004D0000#40).rspValid = false ∧
      acceptedIn 3 (stalled 0x30004D0000#40) = (encFrame [0x4D#8]).map encode := by
  refine ⟨?_, rfl, by decide⟩; unfold State.noReset; decide
theorem witness_BlockComputesDecode :
    (stalled 0x5464413D3D#40).noReset 3 ∧ (stalled 0x5464413D3D#40).rspValid = false ∧
      (stalled 0x5464413D3D#40).decErr = false ∧
      acceptedIn 3 (stalled 0x5464413D3D#40) = (decFrame [0x64#8, 0x41#8, 0x3D#8, 0x3D#8]).map encode := by
  refine ⟨?_, rfl, rfl, by decide⟩; unfold State.noReset; decide
theorem witness_EncodedPads :
    ([] : List Byte).length % 3 = 0 ∧ ([0#8] : List Byte).length % 3 = 1 ∧ ([0#8, 0#8] : List Byte).length % 3 = 2 := by decide
theorem witness_DecodeErrors :
    ([0x54#8, 0x57#8, 0x46#8] : List Byte).length % 4 ≠ 0 ∧
      ∃ c ∈ ([0x54#8, 0x57#8, 0x46#8, 0x24#8] : List Byte), classify c = .bad := ⟨by decide, 0x24#8, by decide, by decide⟩
theorem witness_LengthErrorComesFirst : ([0x24#8] : List Byte).length % 4 ≠ 0 := by decide
theorem witness_AbandonedMessage : ([0x54#8, 0x57#8, 0x46#8, 0x75#8] : List Byte).length % 4 = 0 := by decide
theorem witness_FinalGroupBelongsInDecf :
    0x3D#8 ∈ [0x54#8, 0x51#8, 0x3D#8, 0x3D#8] ∧ 0x3D#8 ∉ [0x54#8, 0x57#8, 0x46#8, 0x75#8] := by decide
theorem witness_OtherCommandsInterleaveFreely :
    ((0x30004D0000#40 : CmdWord), some (0x1054513D3D#40 : RspWord)) ∈
        ([0x4054574675#40, 0x30004D0000#40] : List CmdWord).zip (answers [0x4054574675#40, 0x30004D0000#40] false) ∧
      isDecoderCmd 0x30004D0000#40 = false := by decide

end Sys2Proof.Tests
end

/-! PROOFS. The one answer behind every meaning: `commandResult`, held to `exec` and to `execWord`; and what the answers of
the decoder commands say of `dec_err`. -/

namespace Sys2Proof.Machine

/-- What a command answers (R23), from the command and `dec_err` alone. -/
def commandResult (i : Instr) (decErr : Bool) : CmdResult :=
  match i with
  | .nop _ => nopResult decErr
  | .enc3 _ b0 b1 b2 => enc3Result b0 b1 b2 decErr
  | .enc2 _ b0 b1 _ => enc2Result b0 b1 decErr
  | .enc1 _ b0 _ => enc1Result b0 decErr
  | .dec c0 c1 c2 c3 => decResult c0 c1 c2 c3 decErr
  | .decf n c0 c1 c2 c3 => decfResult n c0 c1 c2 c3 decErr
  | .illegal _ _ _ => illegalResult decErr

/-- Every meaning completes its command's answer; this names the result of `exec_complete`. -/
theorem exec_eq_complete (i : Instr) (s : State) : exec i s = .next (s.complete (commandResult i s.decErr)) := by
  cases i <;> rfl

/-- The function of the word (R23) is the answer of the command the word decodes to. -/
theorem execWord_eq_commandResult (w : CmdWord) (e : Bool) : execWord w e = commandResult (decode w) e := by
  unfold execWord decode
  by_cases hl : legal (cmdOp w) (cmdAux w) = true
  · simp only [hl, decodeLegal, Bool.not_true, Bool.false_eq_true, if_false, if_true]
    generalize (cmdOp w).toNat = op
    match op with
    | 0 | 1 | 2 | 3 | 4 | 5 => rfl
    | _ + 6 => rfl
  · simp only [hl, Bool.not_false, if_true, Bool.false_eq_true, if_false]
    rfl

/-- The meaning of the decoded command completes the answer of the word. -/
theorem exec_decode (w : CmdWord) (s : State) : exec (decode w) s = .next (s.complete (execWord w s.decErr)) := by
  rw [exec_eq_complete, execWord_eq_commandResult]

/-- The rows R41 lists as legal. -/
theorem legal_iff (op aux : BitVec 4) :
    legal op aux = true ↔ (op.toNat ≤ 4 ∧ aux.toNat = 0) ∨ (op.toNat = 5 ∧ aux.toNat ≤ 4) := by
  simp [legal, BitVec.le_def, ← BitVec.toNat_inj]

theorem decResult_decErr (c0 c1 c2 c3 : Byte) (e : Bool) : (decResult c0 c1 c2 c3 e).decErr =
    (e || !((classify c0).isSym && (classify c1).isSym && (classify c2).isSym && (classify c3).isSym)) := by
  dsimp only [decResult]
  split <;> rfl

@[simp] theorem finalGroupResult_decErr (c0 c1 c2 c3 : Byte) (e : Bool) :
    (finalGroupResult c0 c1 c2 c3 e).decErr = false := by
  dsimp only [finalGroupResult]
  split <;> rfl

/-- Every legal DECF clears `dec_err`; a count above 4 is no DECF (log entry 7). -/
theorem decfResult_decErr {n : Nat} (hn : n ≤ 4) (c0 c1 c2 c3 : Byte) (e : Bool) :
    (decfResult n c0 c1 c2 c3 e).decErr = false := by
  match n, hn with
  | 0, _ | 1, _ | 2, _ | 3, _ => rfl
  | 4, _ => exact finalGroupResult_decErr c0 c1 c2 c3 e

/-- While an error is pending DEC answers without lanes (R61). -/
theorem decResult_of_pending (c0 c1 c2 c3 : Byte) :
    decResult c0 c1 c2 c3 true = respond (emptyRsp .ok false) true := rfl

theorem decfResult_zero (c0 c1 c2 c3 : Byte) (e : Bool) :
    decfResult 0 c0 c1 c2 c3 e = respond (emptyRsp (if e then .invalidSymbol else .ok) true) false := rfl

theorem decfResult_four (c0 c1 c2 c3 : Byte) (e : Bool) :
    decfResult 4 c0 c1 c2 c3 e = finalGroupResult c0 c1 c2 c3 e := rfl

/-- While an error is pending a final group is answered INVALID_SYMBOL, whatever its codes (R62). -/
theorem finalGroupResult_of_pending (c0 c1 c2 c3 : Byte) :
    finalGroupResult c0 c1 c2 c3 true = respond (emptyRsp .invalidSymbol true) false := by
  dsimp only [finalGroupResult]
  split
  · contradiction
  · rfl

/-- `cmd_ready` (R93): no reset, and the response register is free or being emptied. -/
theorem State.cmdReady_iff (s : State) (p : Pins) :
    s.cmdReady p = true ↔ p.rst = false ∧ (s.rspValid = false ∨ p.rspReady = true) := by
  simp [State.cmdReady]

end Sys2Proof.Machine

/-! PROOFS. The obligations of spec/10_state.md: `dec_err` (R14), `exec(cmd, dec_err)` (R23) and the reset values (R26). -/

namespace Sys2Proof.Machine

/-- Settles O23, by cases on the command: each answer's new `dec_err`, and the two decoder answers under a pending error. -/
theorem decErrFollowsItsRule : Obligations.DecErrFollowsItsRule := by
  unfold Obligations.DecErrFollowsItsRule
  refine ⟨fun i s hwf => ⟨_, exec_eq_complete i s, ?_⟩, fun c0 c1 c2 c3 s he => ⟨⟨_, exec_eq_complete _ s, ?_⟩,
    ⟨_, exec_eq_complete _ s, ?_⟩, ⟨_, exec_eq_complete _ s, ?_⟩⟩, State.reset_decErr⟩
  · rw [State.complete_decErr]
    cases i with
    | dec c0 c1 c2 c3 => exact decResult_decErr c0 c1 c2 c3 s.decErr
    | decf n c0 c1 c2 c3 => exact decfResult_decErr (of_decide_eq_true hwf) c0 c1 c2 c3 s.decErr
    | nop | enc3 | enc2 | enc1 | illegal => rfl
  · simp only [commandResult, he, decResult_of_pending, State.complete_respond]
    exact rspCnt_word (emptyRsp .ok false) (by decide)
  · simp only [commandResult, he, decfResult_zero, State.complete_respond, if_true]
    exact rspSt_word (emptyRsp .invalidSymbol true)
  · simp only [commandResult, he, decfResult_four, finalGroupResult_of_pending, State.complete_respond]
    exact rspSt_word (emptyRsp .invalidSymbol true)

/-- Settles O26: the decoded meaning completes the word's answer, with a response or without one. -/
theorem execIsAFunctionOfWordAndDecErr : Obligations.ExecIsAFunctionOfWordAndDecErr := by
  unfold Obligations.ExecIsAFunctionOfWordAndDecErr
  refine ⟨fun w s => ?_, legal_iff⟩
  rw [exec_decode]
  generalize execWord w s.decErr = answer
  obtain ⟨_ | r, e⟩ := answer
  · rfl
  · rfl

/-- Settles O30, from the reset state's fields and the formula of `cmd_ready`. -/
theorem resetValues : Obligations.ResetValues := by
  unfold Obligations.ResetValues
  refine ⟨State.reset_decErr, State.reset_rspValid, State.reset_rspQ, fun s p hr => ?_, fun p hr => ?_⟩
  · rw [← Bool.not_eq_true, State.cmdReady_iff]
    simp [hr]
  · rw [State.cmdReady_iff]
    exact ⟨hr, .inl State.reset_rspValid⟩

end Sys2Proof.Machine

/-! PROOFS. Runs of edges (spec/20_memory.md R34): one edge in terms of what passes the ports, how a run and a sequence of
commands split at their first edge, and the refinement of the in-order stream by every run without reset. -/

namespace Sys2Proof.Machine

/-- Every edge has a next state, and uses up its pins. -/
theorem step_total (s : State) : ∃ t, step s = .next t ∧ t.inputs = s.inputs.tail := by
  unfold step
  cases s.edgeAction s.pins with
  | reset => exact ⟨_, rfl, rfl⟩
  | accept cmd => exact ⟨_, exec_decode cmd _, State.complete_inputs _ _⟩
  | hold => exact ⟨_, rfl, rfl⟩

/-! ### What passes the ports at one edge -/

/-- The accepting edge of `step_cases` accepts the command on `cmd` (R93). -/
theorem State.acceptedCmd_of_accepts {s : State} (hr : s.pins.rst = false) (hv : s.pins.cmdValid = true)
    (hf : s.rspValid = false ∨ s.pins.rspReady = true) : s.acceptedCmd = [s.pins.cmd] := by
  have hready : s.cmdReady s.pins = true := (s.cmdReady_iff s.pins).mpr ⟨hr, hf⟩
  simp [State.acceptedCmd, hv, hready]

/-- The holding edge of `step_cases` accepts nothing (R93). -/
theorem State.acceptedCmd_of_holds {s : State}
    (hn : s.pins.cmdValid = false ∨ (s.rspValid = true ∧ s.pins.rspReady = false)) : s.acceptedCmd = [] := by
  rcases hn with hv | ⟨hw, hy⟩
  · simp [State.acceptedCmd, hv]
  · simp [State.acceptedCmd, State.cmdReady, hw, hy]

theorem State.pendingRsp_of_free {s : State} (h : s.rspValid = false) : s.pendingRsp = [] := by
  simp [State.pendingRsp, h]

/-- What waits before an edge without reset is taken at it or waits on: taking loses and repeats nothing. -/
theorem State.takenRsp_append_pendingRsp {s : State} (hr : s.pins.rst = false) :
    s.takenRsp ++ (s.dropPins.takeResponse s.pins.rspReady).pendingRsp = s.pendingRsp := by
  cases hw : s.rspValid with
  | false => simp [State.takenRsp, State.pendingRsp, hw]
  | true => cases hy : s.pins.rspReady <;> simp [State.takenRsp, State.pendingRsp, hr, hw, hy]

/-- A command that completes on a free register leaves its own response waiting, and nothing else. -/
theorem State.pendingRsp_complete {s : State} (h : s.rspValid = false) (r : CmdResult) :
    (s.complete r).pendingRsp = r.rsp.toList := by
  simp only [State.pendingRsp, State.complete_rspValid, State.complete_rspQ, h, Bool.false_or]
  cases r.rsp with
  | none => rfl
  | some w => rfl

/-! ### Sequences of commands -/

@[simp] theorem responses_nil (e : Bool) : responses [] e = [] := rfl
@[simp] theorem decErrAfter_nil (e : Bool) : decErrAfter [] e = e := rfl
@[simp] theorem decErrAfter_cons (c : CmdWord) (cs : List CmdWord) (e : Bool) :
    decErrAfter (c :: cs) e = decErrAfter cs (execWord c e).decErr := rfl

theorem responses_cons (c : CmdWord) (cs : List CmdWord) (e : Bool) :
    responses (c :: cs) e = (execWord c e).rsp.toList ++ responses cs (execWord c e).decErr := by
  simp only [responses, answers]
  cases (execWord c e).rsp with
  | none => rfl
  | some w => rfl

theorem responses_append (cs ds : List CmdWord) (e : Bool) :
    responses (cs ++ ds) e = responses cs e ++ responses ds (decErrAfter cs e) := by
  induction cs generalizing e with
  | nil => rfl
  | cons c cs ih => simp only [List.cons_append, responses_cons, decErrAfter_cons, ih, List.append_assoc]

theorem decErrAfter_append (cs ds : List CmdWord) (e : Bool) :
    decErrAfter (cs ++ ds) e = decErrAfter ds (decErrAfter cs e) := by
  induction cs generalizing e with
  | nil => rfl
  | cons c cs ih => exact ih (execWord c e).decErr

/-! ### Runs, split at their first edge -/

section FirstEdge
variable {s t : State} (h : step s = .next t) (k : Nat)
include h

theorem runEdges_succ : runEdges (k + 1) s = runEdges k t := by simp only [runEdges, h]

theorem acceptedIn_succ : acceptedIn (k + 1) s = s.acceptedCmd ++ acceptedIn k t := by simp only [acceptedIn, h]

theorem takenIn_succ : takenIn (k + 1) s = s.takenRsp ++ takenIn k t := by simp only [takenIn, h]

end FirstEdge

/-- A listed run without reset has no reset at its first edge, nor after it. -/
theorem State.noReset_succ {s t : State} {k : Nat} (h : s.noReset (k + 1)) (ht : t.inputs = s.inputs.tail) :
    s.pins.rst = false ∧ t.noReset k := by
  obtain ⟨hlen, hrst⟩ := h
  cases hs : s.inputs with
  | nil => simp [hs] at hlen
  | cons p ps =>
    rw [hs, List.tail_cons] at ht
    rw [hs, List.length_cons] at hlen
    rw [hs, List.take_succ_cons, List.forall_mem_cons] at hrst
    rw [State.pins_cons s p ps hs, State.noReset, ht]
    exact ⟨hrst.1, by omega, hrst.2⟩

/-! ### The refinement -/

/-- One edge without reset runs the commands it accepts, none or one, on the stream: their responses follow what waited,
and `dec_err` is what they leave. -/
theorem step_refines_stream {s t : State} (h : step s = .next t) (hr : s.pins.rst = false) :
    s.takenRsp ++ t.pendingRsp = s.pendingRsp ++ responses s.acceptedCmd s.decErr ∧
      t.decErr = decErrAfter s.acceptedCmd s.decErr := by
  rcases step_cases h with ⟨hreset, -⟩ | ⟨-, hv, hf, hexec⟩ | ⟨-, hn, rfl⟩
  · rw [hr] at hreset
    contradiction
  · rw [exec_decode] at hexec
    obtain rfl := Host.Outcome.next.inj hexec
    have hfree : (s.dropPins.takeResponse s.pins.rspReady).rspValid = false := s.dropPins.takeResponse_free hf
    have htaken : s.takenRsp = s.pendingRsp := by
      rw [← State.takenRsp_append_pendingRsp hr, State.pendingRsp_of_free hfree, List.append_nil]
    rw [State.acceptedCmd_of_accepts hr hv hf, htaken, State.pendingRsp_complete hfree, State.complete_decErr]
    simp [responses_cons]
  · rw [State.acceptedCmd_of_holds hn, State.takenRsp_append_pendingRsp hr]
    simp

/-- Settles O36, by induction on the edges: the first edge refines the stream, and so does the run after it. -/
theorem commandsRunInOrder : Obligations.CommandsRunInOrder := by
  unfold Obligations.CommandsRunInOrder
  intro k
  induction k with
  | zero => exact fun s _ => ⟨s, rfl, by simp [takenIn, acceptedIn], rfl⟩
  | succ k ih =>
    intro s hs
    obtain ⟨s', hstep, hinputs⟩ := step_total s
    obtain ⟨hr, hs'⟩ := State.noReset_succ hs hinputs
    obtain ⟨hrsp, herr⟩ := step_refines_stream hstep hr
    obtain ⟨t, hrun, hrsps, herrs⟩ := ih s' hs'
    rw [runEdges_succ hstep, acceptedIn_succ hstep, takenIn_succ hstep, responses_append, decErrAfter_append, ← herr]
    refine ⟨t, hrun, ?_, herrs⟩
    calc (s.takenRsp ++ takenIn k s') ++ t.pendingRsp
        = (s.takenRsp ++ s'.pendingRsp) ++ responses (acceptedIn k s') s'.decErr := by
          rw [List.append_assoc, hrsps, List.append_assoc]
      _ = s.pendingRsp ++ (responses s.acceptedCmd s.decErr ++ responses (acceptedIn k s') s'.decErr) := by
          rw [hrsp, List.append_assoc]

end Sys2Proof.Machine

/-! PROOFS. The obligations of spec/30_encoding.md on legality (R41) and operands (R42): what the word of given fields
decodes to, the values the encoders assemble from lanes, and answers that read the used lanes alone. -/

namespace Sys2Proof.Machine

/-! ### The command of a word given by its fields -/

/-- A word of legal fields is the command of its row. -/
theorem decode_specCmd_of_legal {op aux : BitVec 4} (h : legal op aux = true) (p : Payload) :
    decode (specCmd op aux p) = decodeLegal op aux p := by
  simp [decode, specCmd_eq_cmdWord, h]

/-- A word of any other fields is the illegal command. -/
theorem decode_specCmd_of_not_legal {op aux : BitVec 4} (h : ¬legal op aux = true) (p : Payload) :
    decode (specCmd op aux p) = .illegal op aux p := by
  simp [decode, specCmd_eq_cmdWord, h]

/-- The legal fields, row by row of the opcode table (R40, R41); of DECF, only `n = 4` has a group to judge. -/
theorem legal_cases {op aux : BitVec 4} (h : legal op aux = true) :
    (aux = 0#4 ∧ (op = 0#4 ∨ op = 1#4 ∨ op = 2#4 ∨ op = 3#4 ∨ op = 4#4)) ∨
    (op = 5#4 ∧ (aux.toNat < 4 ∨ aux = 4#4)) := by
  simp only [← BitVec.toNat_inj, BitVec.toNat_ofNat]
  have := (legal_iff op aux).mp h
  omega

theorem decodeLegal_ne_illegal {op aux : BitVec 4} (h : legal op aux = true) (p : Payload) (o a : BitVec 4)
    (q : Payload) : decodeLegal op aux p ≠ .illegal o a q := by
  rcases legal_cases h with ⟨-, rfl | rfl | rfl | rfl | rfl⟩ | ⟨rfl, -⟩ <;> exact Instr.noConfusion

/-- DECF carries its count in `aux` (R40, R42). -/
theorem decode_specCmd_decf {n : Nat} (hn : n ≤ 4) (p : Payload) :
    decode (specCmd 5#4 (BitVec.ofNat 4 n) p) = .decf n (lane3 p) (lane2 p) (lane1 p) (lane0 p) := by
  have hcount : (BitVec.ofNat 4 n).toNat = n := Nat.mod_eq_of_lt (by omega)
  have hlegal : legal 5#4 (BitVec.ofNat 4 n) = true := (legal_iff _ _).mpr (.inr ⟨rfl, by omega⟩)
  rw [decode_specCmd_of_legal hlegal]
  exact congrArg (Instr.decf · (lane3 p) (lane2 p) (lane1 p) (lane0 p)) hcount

/-- R67's answer, in the words of R43. -/
theorem exec_illegal (op aux : BitVec 4) (ign : Payload) (s : State) :
    exec (.illegal op aux ign) s = .next { s with rspValid := true, rspQ := specRsp 3#2 0#1 0#3 0#32 } := by
  have hword : specRsp 3#2 0#1 0#3 0#32 = (emptyRsp .illegalCmd false).word :=
    specRsp_eq_word (emptyRsp .illegalCmd false)
  rw [hword, exec_eq_complete]
  rfl

/-! ### The values the encoders assemble (R42) -/

theorem lane2_append_lane1 (p : Payload) : lane2 p ++ lane1 p = p.extractLsb' 8 16 :=
  BitVec.extractLsb'_append_extractLsb'_eq_extractLsb' rfl

theorem enc3Value_lanes (p : Payload) : enc3Value (lane2 p) (lane1 p) (lane0 p) = p.extractLsb' 0 24 := by
  rw [enc3Value, lane2_append_lane1]
  exact BitVec.extractLsb'_append_extractLsb'_eq_extractLsb' rfl

theorem enc2Value_lanes (p : Payload) : enc2Value (lane2 p) (lane1 p) = p.extractLsb' 8 16 ++ 0#8 := by
  rw [enc2Value, lane2_append_lane1]

/-! ### The used lanes determine the answer (R42) -/

/-- Payloads that agree under a mask agree on every field the mask covers. -/
theorem extractLsb'_eq_of_and_eq {p q m : Payload} (h : p &&& m = q &&& m) (lo len : Nat)
    (hm : m.extractLsb' lo len = BitVec.allOnes len) : p.extractLsb' lo len = q.extractLsb' lo len := by
  have hfield := congrArg (BitVec.extractLsb' lo len) h
  rwa [BitVec.extractLsb'_and, BitVec.extractLsb'_and, hm, BitVec.and_allOnes, BitVec.and_allOnes] at hfield

/-- DECF with `n` 1 to 3 is the length error, whatever its codes and `dec_err` (R62). -/
theorem decfResult_lengthError {n : Nat} (hpos : 0 < n) (hlt : n < 4) (c0 c1 c2 c3 : Byte) (e : Bool) :
    decfResult n c0 c1 c2 c3 e = respond (emptyRsp .invalidLength true) false := by
  match n, hpos, hlt with
  | 1, _, _ | 2, _, _ | 3, _, _ => rfl

/-- DECF with `n` 0 to 3 is answered without looking at any code (R62). -/
theorem decfResult_codes_unread {n : Nat} (hlt : n < 4) {c0 c1 c2 c3 d0 d1 d2 d3 : Byte} (e : Bool) :
    decfResult n c0 c1 c2 c3 e = decfResult n d0 d1 d2 d3 e := by
  rcases Nat.eq_zero_or_pos n with rfl | hpos
  · rw [decfResult_zero, decfResult_zero]
  · rw [decfResult_lengthError hpos hlt, decfResult_lengthError hpos hlt]

/-- The answer of a legal command is a function of `op`, `aux`, `dec_err` and the payload bits it uses. -/
theorem commandResult_decodeLegal_congr {op aux : BitVec 4} {p q : Payload} (hl : legal op aux = true)
    (h : p &&& usedPayload op aux = q &&& usedPayload op aux) (e : Bool) :
    commandResult (decodeLegal op aux p) e = commandResult (decodeLegal op aux q) e := by
  have field := extractLsb'_eq_of_and_eq h
  rcases legal_cases hl with ⟨rfl, rfl | rfl | rfl | rfl | rfl⟩ | ⟨rfl, hn | rfl⟩
  · rfl
  · have h2 : lane2 p = lane2 q := field 16 8 rfl
    have h1 : lane1 p = lane1 q := field 8 8 rfl
    have h0 : lane0 p = lane0 q := field 0 8 rfl
    show enc3Result (lane2 p) (lane1 p) (lane0 p) e = enc3Result (lane2 q) (lane1 q) (lane0 q) e
    rw [h2, h1, h0]
  · have h2 : lane2 p = lane2 q := field 16 8 rfl
    have h1 : lane1 p = lane1 q := field 8 8 rfl
    show enc2Result (lane2 p) (lane1 p) e = enc2Result (lane2 q) (lane1 q) e
    rw [h2, h1]
  · have h2 : lane2 p = lane2 q := field 16 8 rfl
    exact congrArg (enc1Result · e) h2
  · have hpq : p = q := by simpa using field 0 32 rfl
    rw [hpq]
  · exact decfResult_codes_unread hn e
  · have hpq : p = q := by simpa using field 0 32 rfl
    rw [hpq]

/-! ### The obligations -/

/-- Settles O3: legal fields decode to their row's command, any others to the illegal command. -/
theorem legalOpAndAux : Obligations.LegalOpAndAux := by
  unfold Obligations.LegalOpAndAux
  intro op aux p
  rw [← legal_iff]
  refine ⟨fun h o a q => ?_, fun h => ?_⟩
  · rw [decode_specCmd_of_legal h]
    exact decodeLegal_ne_illegal h p o a q
  · rw [decode_specCmd_of_not_legal h]
    exact ⟨rfl, exec_illegal op aux p⟩

/-- Settles O4: the rows' operands are the lanes, and the answer reads no payload bit outside the used ones. -/
theorem operandsFromPayload : Obligations.OperandsFromPayload := by
  unfold Obligations.OperandsFromPayload
  refine ⟨fun p => ⟨?_, enc3Value_lanes p, ?_, enc2Value_lanes p, ?_, rfl, ?_, fun n hn => ?_⟩,
    fun op aux p q s hl h => ?_⟩
  · exact decode_specCmd_of_legal (op := 1#4) rfl p
  · exact decode_specCmd_of_legal (op := 2#4) rfl p
  · exact decode_specCmd_of_legal (op := 3#4) rfl p
  · exact decode_specCmd_of_legal (op := 4#4) rfl p
  · exact decode_specCmd_decf hn p
  · rw [decode_specCmd_of_legal hl, decode_specCmd_of_legal hl, exec_eq_complete, exec_eq_complete,
      commandResult_decodeLegal_congr hl h]

end Sys2Proof.Machine

/-! PROOFS. The obligations of spec/40_encoder.md: the fields of a group (R51), and ENC3, ENC2 and ENC1 (R53, R54, R55),
each answer put into the spec's formulas once. -/

namespace Sys2Proof.Machine

/-! ### The fields of a group and their symbols -/

/-- The ROM holds the closed form of R47's table. -/
theorem alpha_eq_specAlpha : ∀ i : Sextet, alpha i = specAlpha i := by decide

/-- No index of the alphabet stands for the pad (R47, R48). -/
theorem specAlpha_ne_pad : ∀ i : Sextet, specAlpha i ≠ 0x3D#8 := by decide

/-- The shifter tree (R51) gives the fields that the spec reads by shift and mask. -/
theorem split_eq_specFields (v : Group) :
    split v = { x0 := specField v 18, x1 := specField v 12, x2 := specField v 6, x3 := specField v 0 } := by
  simp only [specField_eq, split]

/-- A group padded by one zero byte has a zero last field (R54). -/
theorem specField_zero_of_pack_two (b0 b1 : Byte) : specField (specPack b0 b1 0#8) 0 = 0#6 := by
  rw [specField_eq, specPack_eq_enc3Value, enc3Value, BitVec.extractLsb'_append_eq_of_add_le (by decide),
    BitVec.extractLsb'_zero]

/-- A group padded by two zero bytes has a zero third field (R55). -/
theorem specField_six_of_pack_one (b0 : Byte) : specField (specPack b0 0#8 0#8) 6 = 0#6 := by
  rw [specField_eq, specPack_eq_enc3Value, ← enc1Value_eq_enc3Value, enc1Value,
    BitVec.extractLsb'_append_eq_of_add_le (by decide), BitVec.extractLsb'_zero]

/-! ### What the encoder commands do -/

/-- A command answered by four symbols writes their word to the response register, and nothing else: R43 and R45 in the
spec's formulas. -/
theorem exec_of_encoderRsp {i : Instr} {s : State} {c0 c1 c2 c3 : Byte}
    (h : commandResult i s.decErr = respond (encoderRsp c0 c1 c2 c3) (decErrKept s.decErr)) :
    exec i s = .next { s with rspValid := true, rspQ := specRsp 0#2 0#1 4#3 (specLanes c0 c1 c2 c3) } := by
  have hword : specRsp 0#2 0#1 4#3 (specLanes c0 c1 c2 c3) = (encoderRsp c0 c1 c2 c3).word := by
    rw [specLanes_eq_payloadOf]
    exact specRsp_eq_word (encoderRsp c0 c1 c2 c3)
  rw [exec_eq_complete, h, State.complete_respond, hword, decErrKept]

/-- R53's answer: the four symbols of the packed group. -/
theorem exec_enc3 (ign b0 b1 b2 : Byte) (s : State) :
    exec (.enc3 ign b0 b1 b2) s = .next { s with
      rspValid := true
      rspQ := specRsp 0#2 0#1 4#3 (specLanes (specAlpha (specField (specPack b0 b1 b2) 18))
        (specAlpha (specField (specPack b0 b1 b2) 12)) (specAlpha (specField (specPack b0 b1 b2) 6))
        (specAlpha (specField (specPack b0 b1 b2) 0))) } := by
  apply exec_of_encoderRsp
  simp only [commandResult, enc3Result, ← specPack_eq_enc3Value, split_eq_specFields, alpha_eq_specAlpha]

/-- R54's answer: the first three symbols and one pad. -/
theorem exec_enc2 (ignHi b0 b1 ignLo : Byte) (s : State) :
    exec (.enc2 ignHi b0 b1 ignLo) s = .next { s with
      rspValid := true
      rspQ := specRsp 0#2 0#1 4#3 (specLanes (specAlpha (specField (specPack b0 b1 0#8) 18))
        (specAlpha (specField (specPack b0 b1 0#8) 12)) (specAlpha (specField (specPack b0 b1 0#8) 6)) 0x3D#8) } := by
  apply exec_of_encoderRsp
  simp only [commandResult, enc2Result, enc2Value_eq_enc3Value, ← specPack_eq_enc3Value, split_eq_specFields,
    alpha_eq_specAlpha, padCode]

/-- R55's answer: the first two symbols and two pads. -/
theorem exec_enc1 (ignHi b0 : Byte) (ignLo : BitVec 16) (s : State) :
    exec (.enc1 ignHi b0 ignLo) s = .next { s with
      rspValid := true
      rspQ := specRsp 0#2 0#1 4#3 (specLanes (specAlpha (specField (specPack b0 0#8 0#8) 18))
        (specAlpha (specField (specPack b0 0#8 0#8) 12)) 0x3D#8 0x3D#8) } := by
  apply exec_of_encoderRsp
  simp only [commandResult, enc1Result, enc1Value_eq_enc3Value, ← specPack_eq_enc3Value, split_eq_specFields,
    alpha_eq_specAlpha, padCode]

/-- ENC3 has no form but `aux = 0` (R41, R53). -/
theorem legal_enc3_iff (aux : BitVec 4) : legal 1#4 aux = true ↔ aux = 0#4 := by
  simp [legal]

/-! ### The worked examples' words -/

theorem decode_enc3_example : decode 0x10004D616E#40 = .enc3 0x00#8 0x4D#8 0x61#8 0x6E#8 := by decide
theorem decode_enc2_example : decode 0x20004D6100#40 = .enc2 0x00#8 0x4D#8 0x61#8 0x00#8 := by decide
theorem decode_enc2_example_ignored_lane : decode 0x20004D61FF#40 = .enc2 0x00#8 0x4D#8 0x61#8 0xFF#8 := by decide
theorem decode_enc1_example : decode 0x30004D0000#40 = .enc1 0x00#8 0x4D#8 0x0000#16 := by decide

/-! ### The obligations -/

/-- Settles O7: each field is a slice of the group, which a shift and a mask read too. -/
theorem splitTakesFields : Obligations.SplitTakesFields := by
  unfold Obligations.SplitTakesFields
  intro v
  exact ⟨BitVec.setWidth_ushiftRight_eq_extractLsb.symm, (specField_eq v 12).symm, (specField_eq v 6).symm,
    (specField_eq v 0).symm⟩

/-- Settles O13, from `exec_enc3` and the decoding of a word by its fields. -/
theorem enc3EncodesThreeBytes : Obligations.Enc3EncodesThreeBytes := by
  unfold Obligations.Enc3EncodesThreeBytes
  refine ⟨exec_enc3, decode_specCmd_of_legal (op := 1#4) rfl, fun aux p haux => ?_, specAlpha_ne_pad,
    fun ign s => ⟨?_, ?_, ?_⟩⟩
  · exact decode_specCmd_of_not_legal (mt (legal_enc3_iff aux).mp haux) p
  · rw [exec_enc3]
    rfl
  · rw [exec_enc3]
    rfl
  · rw [decode_enc3_example, exec_enc3]
    rfl

/-- Settles O14, from `exec_enc2`, which names no ignored lane, and the decoding of a word by its fields. -/
theorem enc2EncodesTwoBytes : Obligations.Enc2EncodesTwoBytes := by
  unfold Obligations.Enc2EncodesTwoBytes
  refine ⟨fun ignHi b0 b1 ignLo s => ⟨specField_zero_of_pack_two b0 b1, exec_enc2 ignHi b0 b1 ignLo s⟩,
    decode_specCmd_of_legal (op := 2#4) rfl, fun ignHi ignLo s => ⟨?_, ?_, ?_, ?_⟩⟩
  · rw [exec_enc2]
    rfl
  · rw [exec_enc2]
    rfl
  · rw [decode_enc2_example, exec_enc2]
    rfl
  · rw [decode_enc2_example, decode_enc2_example_ignored_lane, exec_enc2, exec_enc2]

/-- Settles O15, from `exec_enc1` and the decoding of a word by its fields; ENC1's last field is zero as ENC2's is. -/
theorem enc1EncodesOneByte : Obligations.Enc1EncodesOneByte := by
  unfold Obligations.Enc1EncodesOneByte
  refine ⟨fun ignHi b0 ignLo s => ⟨specField_six_of_pack_one b0, specField_zero_of_pack_two b0 0#8,
    exec_enc1 ignHi b0 ignLo s⟩, decode_specCmd_of_legal (op := 3#4) rfl, fun ignHi ignLo s => ⟨?_, ?_, ?_⟩⟩
  · rw [exec_enc1]
    rfl
  · rw [exec_enc1]
    rfl
  · rw [decode_enc1_example, exec_enc1]
    rfl

end Sys2Proof.Machine

/-! PROOFS. The obligations of spec/41_decoder.md: the lookup (R58), the unpacker (R59), the padding validator (R60), DEC
and DECF (R61, R62), and the bits that padding discards (R63). The answers of `decResult` and `finalGroupResult` are put
into the spec's formulas once, one lemma per branch of their pseudocode. -/

namespace Sys2Proof.Machine

/-! ### The lookup (R58) -/

@[simp] theorem classify_pad : classify 0x3D#8 = .pad := rfl

theorem CodeClass.isSym_eq_false_iff (k : CodeClass) : k.isSym = false ↔ ¬∃ i, k = .sym i := by
  rw [← CodeClass.isSym_iff, Bool.not_eq_true]

/-- The index of a letter: the code less the offset of its range, on bit vectors as on numbers. -/
theorem setWidth_sub_eq_ofNat {c k : Byte} (h : k ≤ c) :
    (c - k).setWidth 6 = BitVec.ofNat 6 (c.toNat - k.toNat) := by
  rw [← BitVec.toNat_sub_of_le h, BitVec.ofNat_toNat]

/-- The index of a digit: the code plus the offset of its range. -/
theorem setWidth_add_eq_ofNat (c k : Byte) : (c + k).setWidth 6 = BitVec.ofNat 6 (c.toNat + k.toNat) := by
  apply BitVec.eq_of_toNat_eq
  simp

/-- Settles O8: the ranges exclude each other, so each one reaches its own branch of the lookup. -/
theorem classOfEveryCode : Obligations.ClassOfEveryCode := by
  unfold Obligations.ClassOfEveryCode
  intro c
  simp only [classify, padCode, BitVec.le_def, ← BitVec.toNat_inj, BitVec.toNat_ofNat]
  refine ⟨fun h => ?_, fun h => ?_, fun h => ?_, fun h => ?_, fun h => ?_, fun h => ?_, fun h => ?_⟩
  · rw [if_pos h]
    exact congrArg _ (setWidth_sub_eq_ofNat (BitVec.le_def.mpr h.1))
  · rw [if_neg (by omega), if_pos h]
    exact congrArg _ (setWidth_sub_eq_ofNat (BitVec.le_def.mpr (show 0x47 ≤ c.toNat by omega)))
  · rw [if_neg (by omega), if_neg (by omega), if_pos h]
    exact congrArg _ (setWidth_add_eq_ofNat c 0x04#8)
  · simp [h]
  · simp [h]
  · simp [h]
  · simp [h]

/-! ### The unpacker (R59) -/

theorem groupBytes_eq_shifts (v : Group) :
    groupBytes v = [(v >>> 16).setWidth 8, (v >>> 8).setWidth 8, v.setWidth 8] := by
  rw [groupBytes, BitVec.setWidth_ushiftRight_eq_extractLsb, BitVec.setWidth_ushiftRight_eq_extractLsb,
    BitVec.setWidth_eq_extractLsb' (by decide)]

/-- Settles O10: the formula of R59 is the unpacked group, whose bytes shifts read too. -/
theorem unpackJoinsIndices : Obligations.UnpackJoinsIndices := by
  unfold Obligations.UnpackJoinsIndices
  refine ⟨fun i0 i1 i2 i3 => ⟨(specUnpack_eq_unpack i0 i1 i2 i3).symm, rfl, ?_⟩, CodeClass.index_pad⟩
  rw [specUnpack_eq_unpack, groupBytes_eq_shifts]

/-! ### The padding validator (R60) -/

/-- The rows R60 lists as valid, each with its pad count. -/
theorem padValid_eq_some_iff (k0 k1 k2 k3 : CodeClass) (p : Nat) : padValid k0 k1 k2 k3 = some p ↔
    (∃ i0 i1, k0 = .sym i0 ∧ k1 = .sym i1) ∧
      ((p = 0 ∧ ∃ i2 i3, k2 = .sym i2 ∧ k3 = .sym i3) ∨ (p = 1 ∧ k3 = .pad ∧ ∃ i2, k2 = .sym i2) ∨
        (p = 2 ∧ k2 = .pad ∧ k3 = .pad)) := by
  constructor
  · intro h
    obtain ⟨i0, i1, rfl, rfl, ⟨i2, i3, rfl, rfl, rfl⟩ | ⟨i2, rfl, rfl, rfl⟩ | ⟨rfl, rfl, rfl⟩⟩ := padValid_cases h
    all_goals simp
  · rintro ⟨⟨i0, i1, rfl, rfl⟩, ⟨rfl, i2, i3, rfl, rfl⟩ | ⟨rfl, rfl, i2, rfl⟩ | ⟨rfl, rfl, rfl⟩⟩
    all_goals rfl

/-- The groups R60 lists as invalid: the three valid rows have none of their forms, and every other row has one. -/
theorem padValid_eq_none_iff (k0 k1 k2 k3 : CodeClass) : padValid k0 k1 k2 k3 = none ↔
    (k0 = .bad ∨ k1 = .bad ∨ k2 = .bad ∨ k3 = .bad) ∨ (k0 = .pad ∨ k1 = .pad) ∨ (k2 = .pad ∧ k3 ≠ .pad) := by
  constructor
  · intro h
    match k0, k1, k2, k3 with
    | .sym _, .sym _, .sym _, .sym _ | .sym _, .sym _, .sym _, .pad | .sym _, .sym _, .pad, .pad => cases h
    | .bad, _, _, _ | _, .bad, _, _ | _, _, .bad, _ | _, _, _, .bad => simp
    | .pad, _, _, _ | _, .pad, _, _ | _, _, .pad, .sym _ => simp
  · contrapose!
    intro h
    obtain ⟨p, hp⟩ := Option.ne_none_iff_exists'.mp h
    obtain ⟨i0, i1, rfl, rfl, ⟨i2, i3, rfl, rfl, -⟩ | ⟨i2, rfl, rfl, -⟩ | ⟨rfl, rfl, -⟩⟩ := padValid_cases hp
    all_goals simp

/-- No group is valid unless it begins with two symbols. -/
theorem padValid_of_not_two_syms {k0 k1 : CodeClass} (h : ¬∃ i0 i1, k0 = .sym i0 ∧ k1 = .sym i1)
    (k2 k3 : CodeClass) : padValid k0 k1 k2 k3 = none := by
  by_contra hv
  obtain ⟨p, hp⟩ := Option.ne_none_iff_exists'.mp hv
  exact h ((padValid_eq_some_iff k0 k1 k2 k3 p).mp hp).1

/-- Settles O12: the valid rows and the invalid ones. -/
theorem padValidatorTable : Obligations.PadValidatorTable := by
  unfold Obligations.PadValidatorTable
  exact ⟨padValid_eq_some_iff, padValid_eq_none_iff⟩

/-! ### The answers of DEC and of DECF's final group (R61, R62) -/

/-- R9's zero extension puts a zero lane before the group. -/
theorem zext32_eq_setWidth (v : Group) : zext32 v = v.setWidth 32 :=
  (BitVec.setWidth_eq_append (by decide)).symm

/-- Four symbols with no error pending: DEC's three bytes. -/
theorem decResult_of_syms {c0 c1 c2 c3 : Byte} {i0 i1 i2 i3 : Sextet} {e : Bool} (he : e = false)
    (h0 : classify c0 = .sym i0) (h1 : classify c1 = .sym i1) (h2 : classify c2 = .sym i2)
    (h3 : classify c3 = .sym i3) :
    decResult c0 c1 c2 c3 e =
      respond { st := .ok, last := false, cnt := 3, data := (specUnpack i0 i1 i2 i3).setWidth 32 } false := by
  simp [decResult, he, h0, h1, h2, h3, decErrAfterDec, zext32_eq_setWidth, specUnpack_eq_unpack]

/-- An error pending, or a code of the group that is no symbol: DEC answers without lanes and leaves an error. -/
theorem decResult_of_error {c0 c1 c2 c3 : Byte} {e : Bool}
    (h : e = true ∨ (¬∃ i, classify c0 = .sym i) ∨ (¬∃ i, classify c1 = .sym i) ∨ (¬∃ i, classify c2 = .sym i) ∨
      (¬∃ i, classify c3 = .sym i)) :
    decResult c0 c1 c2 c3 e = respond (emptyRsp .ok false) true := by
  simp only [← CodeClass.isSym_eq_false_iff] at h
  rcases h with rfl | h | h | h | h
  · exact decResult_of_pending c0 c1 c2 c3
  all_goals simp [decResult, decErrAfterDec, h]

/-- A valid final group with no error pending: the bytes its pads leave. -/
theorem finalGroupResult_of_valid {c0 c1 c2 c3 : Byte} {k0 k1 k2 k3 : CodeClass} {e : Bool} (p : Nat)
    (he : e = false) (h0 : classify c0 = k0) (h1 : classify c1 = k1) (h2 : classify c2 = k2) (h3 : classify c3 = k3)
    (hp : padValid k0 k1 k2 k3 = some p) :
    finalGroupResult c0 c1 c2 c3 e =
      respond { st := .ok, last := true, cnt := 3 - p,
                data := (specUnpack k0.index k1.index k2.index k3.index).setWidth 32 &&& keepMask (3 - p) } false := by
  simp only [finalGroupResult, he, h0, h1, h2, h3, hp, decErrAfterDecf, zext32_eq_setWidth, specUnpack_eq_unpack]

/-- An error pending, or an invalid final group: INVALID_SYMBOL. -/
theorem finalGroupResult_of_error {c0 c1 c2 c3 : Byte} {e : Bool}
    (h : e = true ∨ padValid (classify c0) (classify c1) (classify c2) (classify c3) = none) :
    finalGroupResult c0 c1 c2 c3 e = respond (emptyRsp .invalidSymbol true) false := by
  rcases h with rfl | h
  · exact finalGroupResult_of_pending c0 c1 c2 c3
  · simp only [finalGroupResult, h, decErrAfterDecf]

/-! ### What DEC and DECF do (R61, R62) -/

/-- A command that responds writes its `dec_err` and, by R43's formula, its response word, and nothing else. -/
theorem exec_of_respond {i : Instr} {s : State} {r : Rsp} {e : Bool} (h : commandResult i s.decErr = respond r e) :
    exec i s = .next { s with
      decErr := e
      rspValid := true
      rspQ := specRsp r.st.code (BitVec.ofBool r.last) (BitVec.ofNat 3 r.cnt) r.data } := by
  rw [exec_eq_complete, h, State.complete_respond, specRsp_eq_word]

theorem exec_dec_of_syms {c0 c1 c2 c3 : Byte} {i0 i1 i2 i3 : Sextet} {s : State} (he : s.decErr = false)
    (h0 : classify c0 = .sym i0) (h1 : classify c1 = .sym i1) (h2 : classify c2 = .sym i2)
    (h3 : classify c3 = .sym i3) :
    exec (.dec c0 c1 c2 c3) s = .next { s with
      decErr := false
      rspValid := true
      rspQ := specRsp 0#2 0#1 3#3 ((specUnpack i0 i1 i2 i3).setWidth 32) } :=
  (exec_of_respond (i := .dec c0 c1 c2 c3) (decResult_of_syms he h0 h1 h2 h3) :)

theorem exec_dec_of_error {c0 c1 c2 c3 : Byte} {s : State}
    (h : s.decErr = true ∨ (¬∃ i, classify c0 = .sym i) ∨ (¬∃ i, classify c1 = .sym i) ∨
      (¬∃ i, classify c2 = .sym i) ∨ (¬∃ i, classify c3 = .sym i)) :
    exec (.dec c0 c1 c2 c3) s =
      .next { s with decErr := true, rspValid := true, rspQ := specRsp 0#2 0#1 0#3 0#32 } :=
  (exec_of_respond (i := .dec c0 c1 c2 c3) (s := s) (decResult_of_error h) :)

theorem exec_decf_zero (c0 c1 c2 c3 : Byte) (s : State) :
    exec (.decf 0 c0 c1 c2 c3) s = .next { s with
      decErr := false
      rspValid := true
      rspQ := specRsp (if s.decErr then 2#2 else 0#2) 1#1 0#3 0#32 } := by
  have hst : (if s.decErr then Status.invalidSymbol else .ok).code = if s.decErr then 2#2 else 0#2 := apply_ite ..
  rw [← hst]
  exact (exec_of_respond (i := .decf 0 c0 c1 c2 c3) (decfResult_zero c0 c1 c2 c3 s.decErr) :)

theorem exec_decf_lengthError {n : Nat} (hpos : 1 ≤ n) (hle : n ≤ 3) (c0 c1 c2 c3 : Byte) (s : State) :
    exec (.decf n c0 c1 c2 c3) s =
      .next { s with decErr := false, rspValid := true, rspQ := specRsp 1#2 1#1 0#3 0#32 } :=
  (exec_of_respond (i := .decf n c0 c1 c2 c3) (s := s)
    (decfResult_lengthError hpos (Nat.lt_succ_of_le hle) c0 c1 c2 c3 s.decErr) :)

theorem exec_decf_four (c0 c1 c2 c3 : Byte) (s : State) :
    exec (.decf 4 c0 c1 c2 c3) s = .next (s.complete (finalGroupResult c0 c1 c2 c3 s.decErr)) :=
  exec_eq_complete (.decf 4 c0 c1 c2 c3) s

theorem exec_decf_four_of_valid {c0 c1 c2 c3 : Byte} {k0 k1 k2 k3 : CodeClass} {s : State} (p : Nat)
    (he : s.decErr = false) (h0 : classify c0 = k0) (h1 : classify c1 = k1) (h2 : classify c2 = k2)
    (h3 : classify c3 = k3) (hp : padValid k0 k1 k2 k3 = some p) :
    exec (.decf 4 c0 c1 c2 c3) s = .next { s with
      decErr := false
      rspValid := true
      rspQ := specRsp 0#2 1#1 (BitVec.ofNat 3 (3 - p))
        ((specUnpack k0.index k1.index k2.index k3.index).setWidth 32 &&& keepMask (3 - p)) } :=
  (exec_of_respond (i := .decf 4 c0 c1 c2 c3) (finalGroupResult_of_valid p he h0 h1 h2 h3 hp) :)

theorem exec_decf_four_of_error {c0 c1 c2 c3 : Byte} {s : State}
    (h : s.decErr = true ∨ padValid (classify c0) (classify c1) (classify c2) (classify c3) = none) :
    exec (.decf 4 c0 c1 c2 c3) s =
      .next { s with decErr := false, rspValid := true, rspQ := specRsp 2#2 1#1 0#3 0#32 } :=
  (exec_of_respond (i := .decf 4 c0 c1 c2 c3) (s := s) (finalGroupResult_of_error h) :)

/-- DECF has the counts 0 to 4 (R41, R62). -/
theorem legal_decf_iff (aux : BitVec 4) : legal 5#4 aux = true ↔ aux.toNat ≤ 4 := by
  simp [legal, BitVec.le_def]

/-- A state without a pending error is not changed by clearing the error. -/
theorem State.update_decErr_false {s : State} (he : s.decErr = false) (q : RspWord) :
    ({ s with decErr := false, rspValid := true, rspQ := q } : State) = { s with rspValid := true, rspQ := q } := by
  rw [he]

theorem decode_dec_example : decode 0x4054574675#40 = .dec 0x54#8 0x57#8 0x46#8 0x75#8 := by decide
theorem decode_decf_example : decode 0x5464413D3D#40 = .decf 4 0x64#8 0x41#8 0x3D#8 0x3D#8 := by decide

/-- Settles O18, from the two branches of DEC; the lookups of the corner cases evaluate. -/
theorem decDecodesAGroup : Obligations.DecDecodesAGroup := by
  unfold Obligations.DecDecodesAGroup
  refine ⟨fun c0 c1 c2 c3 i0 i1 i2 i3 s => exec_dec_of_syms, fun c0 c1 c2 c3 s => exec_dec_of_error,
    decode_specCmd_of_legal (op := 4#4) rfl, fun c0 c1 c2 c3 s h => ?_, fun s he => ⟨?_, ?_, ?_⟩⟩
  · have hpad : ∀ {c : Byte}, c = 0x3D#8 → ¬∃ i, classify c = .sym i := by
      rintro _ rfl
      simp
    exact exec_dec_of_error (.inr (h.imp hpad (.imp hpad (.imp hpad hpad))))
  · rw [exec_dec_of_syms (i0 := 0#6) (i1 := 0#6) (i2 := 0#6) (i3 := 0#6) he rfl rfl rfl rfl,
      State.update_decErr_false he]
    rfl
  · rw [exec_dec_of_syms (i0 := 63#6) (i1 := 63#6) (i2 := 63#6) (i3 := 63#6) he rfl rfl rfl rfl,
      State.update_decErr_false he]
    rfl
  · rw [decode_dec_example, exec_dec_of_syms he rfl rfl rfl rfl, State.update_decErr_false he]
    rfl

/-- Settles O19, count by count; the valid final groups are the three rows of R60. -/
theorem decfClosesTheMessage : Obligations.DecfClosesTheMessage := by
  unfold Obligations.DecfClosesTheMessage
  refine ⟨exec_decf_zero, fun n c0 c1 c2 c3 s hpos hle => exec_decf_lengthError hpos hle c0 c1 c2 c3 s,
    fun c0 c1 c2 c3 i0 i1 i2 i3 s he h0 h1 h2 h3 => ?_, fun c0 c1 c2 c3 i0 i1 i2 s he h0 h1 h2 h3 => ?_,
    fun c0 c1 c2 c3 i0 i1 s he h0 h1 h2 h3 => ?_, fun c0 c1 c2 c3 s => exec_decf_four_of_error,
    fun n p hn => decode_specCmd_decf hn p, fun aux p haux => ?_, fun s he => ?_⟩
  · simpa [keepMask] using exec_decf_four_of_valid 0 he h0 h1 h2 h3 rfl
  · simpa [keepMask] using exec_decf_four_of_valid 1 he h0 h1 h2 h3 rfl
  · simpa [keepMask] using exec_decf_four_of_valid 2 he h0 h1 h2 h3 rfl
  · exact decode_specCmd_of_not_legal (mt (legal_decf_iff aux).mp (Nat.not_le.mpr haux)) p
  · rw [decode_decf_example, exec_decf_four_of_valid 2 he rfl rfl rfl rfl rfl, State.update_decErr_false he]
    rfl

/-! ### The bits that padding keeps (R63) -/

/-- The first byte of a group: the first index and the top two bits of the second. -/
theorem unpack_firstByte (i0 i1 i2 i3 : Sextet) :
    (unpack i0 i1 i2 i3).extractLsb' 16 8 = i0 ++ i1.extractLsb' 4 2 := by
  rw [unpack, BitVec.extractLsb'_append_eq_of_le (by decide), BitVec.extractLsb'_append_eq_of_le (by decide),
    BitVec.extractLsb'_append_eq_ite]
  simp

/-- The second byte of a group: the low four bits of the second index and the top four of the third. -/
theorem unpack_secondByte (i0 i1 i2 i3 : Sextet) :
    (unpack i0 i1 i2 i3).extractLsb' 8 8 = i1.extractLsb' 0 4 ++ i2.extractLsb' 2 4 := by
  have hlow : (i0 ++ i1).extractLsb' 0 4 = i1.extractLsb' 0 4 := BitVec.extractLsb'_append_eq_of_add_le (by decide)
  rw [unpack, BitVec.extractLsb'_append_eq_of_le (by decide), BitVec.extractLsb'_append_eq_ite]
  simp [hlow]

theorem lane2_setWidth (v : Group) : lane2 (v.setWidth 32) = v.extractLsb' 16 8 :=
  BitVec.extractLsb'_setWidth_of_le (by decide)

theorem lane1_setWidth (v : Group) : lane1 (v.setWidth 32) = v.extractLsb' 8 8 :=
  BitVec.extractLsb'_setWidth_of_le (by decide)

/-- A mask acts lane by lane. -/
theorem payload_and (p m : Payload) :
    p &&& m = payloadOf (lane3 p &&& lane3 m) (lane2 p &&& lane2 m) (lane1 p &&& lane1 m) (lane0 p &&& lane0 m) := by
  rw [← payloadOf_lanes (p &&& m)]
  simp only [lane3, lane2, lane1, lane0, BitVec.extractLsb'_and]

/-- `M(1)` (R62) keeps the first byte. -/
theorem setWidth_and_keepMask_one (v : Group) :
    v.setWidth 32 &&& keepMask 1 = payloadOf 0#8 (v.extractLsb' 16 8) 0#8 0#8 := by
  have hmask : lane3 (keepMask 1) = 0#8 ∧ lane2 (keepMask 1) = BitVec.allOnes 8 ∧ lane1 (keepMask 1) = 0#8 ∧
    lane0 (keepMask 1) = 0#8 := by decide
  simp only [payload_and, hmask, BitVec.and_zero, BitVec.and_allOnes, lane2_setWidth]

/-- `M(2)` (R62) keeps the first two bytes. -/
theorem setWidth_and_keepMask_two (v : Group) :
    v.setWidth 32 &&& keepMask 2 = payloadOf 0#8 (v.extractLsb' 16 8) (v.extractLsb' 8 8) 0#8 := by
  have hmask : lane3 (keepMask 2) = 0#8 ∧ lane2 (keepMask 2) = BitVec.allOnes 8 ∧
    lane1 (keepMask 2) = BitVec.allOnes 8 ∧ lane0 (keepMask 2) = 0#8 := by decide
  simp only [payload_and, hmask, BitVec.and_zero, BitVec.and_allOnes, lane2_setWidth, lane1_setWidth]

/-- A final group with two pads answers one byte, which the low four bits of the second index do not enter. -/
theorem finalGroupResult_two_pads {c0 c1 : Byte} {i0 i1 : Sextet} {e : Bool} (he : e = false)
    (h0 : classify c0 = .sym i0) (h1 : classify c1 = .sym i1) :
    finalGroupResult c0 c1 0x3D#8 0x3D#8 e =
      respond { st := .ok, last := true, cnt := 1,
                data := payloadOf 0#8 (i0 ++ i1.extractLsb' 4 2) 0#8 0#8 } false := by
  rw [finalGroupResult_of_valid 2 he h0 h1 classify_pad classify_pad rfl, setWidth_and_keepMask_one,
    specUnpack_eq_unpack, unpack_firstByte, CodeClass.index_sym, CodeClass.index_sym]

/-- A final group with one pad answers two bytes, which the low two bits of the third index do not enter. -/
theorem finalGroupResult_one_pad {c0 c1 c2 : Byte} {i0 i1 i2 : Sextet} {e : Bool} (he : e = false)
    (h0 : classify c0 = .sym i0) (h1 : classify c1 = .sym i1) (h2 : classify c2 = .sym i2) :
    finalGroupResult c0 c1 c2 0x3D#8 e =
      respond { st := .ok, last := true, cnt := 2,
                data := payloadOf 0#8 (i0 ++ i1.extractLsb' 4 2) (i1.extractLsb' 0 4 ++ i2.extractLsb' 2 4) 0#8 }
        false := by
  rw [finalGroupResult_of_valid 1 he h0 h1 h2 classify_pad rfl, setWidth_and_keepMask_two,
    specUnpack_eq_unpack, unpack_firstByte, unpack_secondByte, CodeClass.index_sym, CodeClass.index_sym,
    CodeClass.index_sym]

/-- With an error pending or without two symbols first, a final group's last two codes make no difference. -/
theorem finalGroupResult_of_not_two_syms {c0 c1 : Byte} {e : Bool}
    (h : ¬(e = false ∧ ∃ i0 i1, classify c0 = .sym i0 ∧ classify c1 = .sym i1)) (c2 c3 : Byte) :
    finalGroupResult c0 c1 c2 c3 e = respond (emptyRsp .invalidSymbol true) false := by
  rw [not_and_or, Bool.not_eq_false] at h
  exact finalGroupResult_of_error (h.imp_right (padValid_of_not_two_syms · _ _))

/-- Values that agree above bit `k` agree on every field that starts there. -/
theorem extractLsb'_eq_of_ushiftRight_eq {w k : Nat} {x y : BitVec w} (h : x >>> k = y >>> k) (len : Nat) :
    x.extractLsb' k len = y.extractLsb' k len := by
  rw [← BitVec.setWidth_ushiftRight_eq_extractLsb, h, BitVec.setWidth_ushiftRight_eq_extractLsb]

theorem finalGroupResult_two_pads_congr {c0 c1 d1 : Byte} {i1 j1 : Sextet} (hc : classify c1 = .sym i1)
    (hd : classify d1 = .sym j1) (hkept : i1 >>> 4 = j1 >>> 4) (e : Bool) :
    finalGroupResult c0 c1 0x3D#8 0x3D#8 e = finalGroupResult c0 d1 0x3D#8 0x3D#8 e := by
  by_cases h : e = false ∧ ∃ i0, classify c0 = .sym i0
  · obtain ⟨he, i0, h0⟩ := h
    rw [finalGroupResult_two_pads he h0 hc, finalGroupResult_two_pads he h0 hd,
      extractLsb'_eq_of_ushiftRight_eq hkept]
  · rw [finalGroupResult_of_not_two_syms (by simpa [hc] using h),
      finalGroupResult_of_not_two_syms (by simpa [hd] using h)]

theorem finalGroupResult_one_pad_congr {c0 c1 c2 d2 : Byte} {i2 j2 : Sextet} (hc : classify c2 = .sym i2)
    (hd : classify d2 = .sym j2) (hkept : i2 >>> 2 = j2 >>> 2) (e : Bool) :
    finalGroupResult c0 c1 c2 0x3D#8 e = finalGroupResult c0 c1 d2 0x3D#8 e := by
  by_cases h : e = false ∧ ∃ i0 i1, classify c0 = .sym i0 ∧ classify c1 = .sym i1
  · obtain ⟨he, i0, i1, h0, h1⟩ := h
    rw [finalGroupResult_one_pad he h0 h1 hc, finalGroupResult_one_pad he h0 h1 hd,
      extractLsb'_eq_of_ushiftRight_eq hkept]
  · rw [finalGroupResult_of_not_two_syms h, finalGroupResult_of_not_two_syms h]

/-- The host reads the first `cnt` byte lanes of a response (R31, R73). -/
theorem hostBytes_word (r : Rsp) (h : r.cnt < 8) :
    hostBytes [r.word] = [lane2 r.data, lane1 r.data, lane0 r.data].take r.cnt := by
  simp [hostBytes, dataLanes, rspCnt_word r h]

/-- The status and the bytes the host reads after a command that responds. -/
theorem exec_hostBytes {i : Instr} {s : State} {r : Rsp} {e : Bool} (h : commandResult i s.decErr = respond r e)
    (hcnt : r.cnt < 8) :
    ∃ t, exec i s = .next t ∧ rspSt t.rspQ = r.st.code ∧
      hostBytes [t.rspQ] = [lane2 r.data, lane1 r.data, lane0 r.data].take r.cnt := by
  refine ⟨_, exec_eq_complete i s, ?_⟩
  rw [h]
  exact ⟨rspSt_word r, hostBytes_word r hcnt⟩

/-- Settles O20: the answers of padded final groups name the kept bits alone. -/
theorem discardedBitsAccepted : Obligations.DiscardedBitsAccepted := by
  unfold Obligations.DiscardedBitsAccepted
  refine ⟨fun c0 c1 d1 i1 j1 s hc hd hkept => ?_, fun c0 c1 c2 d2 i2 j2 s hc hd hkept => ?_,
    fun c0 c1 i0 i1 s he h0 h1 => ?_, fun c0 c1 c2 i0 i1 i2 s he h0 h1 h2 => ?_, fun s he => ⟨?_, ?_⟩⟩
  · rw [exec_decf_four, exec_decf_four, finalGroupResult_two_pads_congr hc hd hkept]
  · rw [exec_decf_four, exec_decf_four, finalGroupResult_one_pad_congr hc hd hkept]
  · have hr : commandResult (.decf 4 c0 c1 0x3D#8 0x3D#8) s.decErr = _ := finalGroupResult_two_pads he h0 h1
    simpa [Status.code] using exec_hostBytes hr (show 1 < 8 by decide)
  · have hr : commandResult (.decf 4 c0 c1 c2 0x3D#8) s.decErr = _ := finalGroupResult_one_pad he h0 h1 h2
    simpa [Status.code] using exec_hostBytes hr (show 2 < 8 by decide)
  · rw [exec_decf_four_of_valid 2 he rfl rfl rfl rfl rfl, State.update_decErr_false he]
    rfl
  · rw [exec_decf_four_of_valid 1 he rfl rfl rfl rfl rfl, State.update_decErr_false he]
    rfl

end Sys2Proof.Machine

/-! PROOFS. The obligations of spec/42_control.md: NOP (R66) and the illegal command (R67). -/

namespace Sys2Proof.Machine

/-! ### NOP (R66) -/

/-- NOP has no form but `aux = 0` (R41, R66). -/
theorem legal_nop_iff (aux : BitVec 4) : legal 0#4 aux = true ↔ aux = 0#4 := by
  simp [legal]

/-- NOP keeps `dec_err` and has no response, so it completes the state it sees. -/
theorem exec_nop (ign : Payload) (s : State) : exec (.nop ign) s = .next s :=
  exec_eq_complete (.nop ign) s

/-- An edge without reset that presents a NOP only takes a waiting response, whether it accepts the NOP or not. -/
theorem step_of_nop {s : State} {ign : Payload} (hr : s.pins.rst = false) (hc : decode s.pins.cmd = .nop ign) :
    step s = .next (s.dropPins.takeResponse s.pins.rspReady) := by
  obtain ⟨t, ht, -⟩ := step_total s
  rcases step_cases ht with ⟨hreset, -⟩ | ⟨-, -, -, hexec⟩ | ⟨-, -, rfl⟩
  · rw [hr] at hreset
    contradiction
  · rw [ht, ← hexec, hc, exec_nop]
  · exact ht

/-! ### Illegal words (R67) -/

/-- The rows R41 lists as illegal are those that are not legal. -/
theorem not_legal_of_illegal_fields {op aux : BitVec 4}
    (h : 6 ≤ op.toNat ∨ (op.toNat ≤ 4 ∧ aux.toNat ≠ 0) ∨ (op.toNat = 5 ∧ 5 ≤ aux.toNat)) : ¬legal op aux = true := by
  rw [legal_iff]
  omega

/-- A word whose fields are not legal is answered `0xC0_0000_0000` (R67), and nothing else changes. -/
theorem exec_decode_of_not_legal {w : CmdWord} (h : ¬legal (cmdOp w) (cmdAux w) = true) (s : State) :
    exec (decode w) s = .next { s with rspValid := true, rspQ := 0xC000000000#40 } := by
  have hdecode : decode w = .illegal (cmdOp w) (cmdAux w) (cmdPayload w) := if_neg h
  have hword : specRsp 3#2 0#1 0#3 0#32 = 0xC000000000#40 := by decide
  rw [hdecode, exec_illegal, hword]

/-! ### The obligations -/

/-- Settles O21: the meaning of NOP, the decoding of a word by its fields, and what an edge does with a NOP. -/
theorem nopDoesNothing : Obligations.NopDoesNothing := by
  unfold Obligations.NopDoesNothing
  refine ⟨exec_nop, decode_specCmd_of_legal (op := 0#4) rfl, fun aux p s haux => ?_, fun s q rest p hs hr hc => ?_⟩
  · apply exec_decode_of_not_legal
    rw [specCmd_eq_cmdWord, cmdOp_cmdWord, cmdAux_cmdWord]
    exact mt (legal_nop_iff aux).mp haux
  · obtain rfl := State.pins_cons s q rest hs
    have hnop : decode s.pins.cmd = .nop p := by
      rw [hc]
      exact decode_specCmd_of_legal (op := 0#4) rfl p
    rw [step_of_nop hr hnop, State.dropPins, hs]
    rfl

/-- Settles O22: R41's illegal rows are not legal, so their words decode to the illegal command; the listed words' fields
are among them. -/
theorem illegalWordAnswersItsStatus : Obligations.IllegalWordAnswersItsStatus := by
  unfold Obligations.IllegalWordAnswersItsStatus
  refine ⟨fun op aux p s h => ⟨?_, exec_illegal op aux p s⟩, fun s => ⟨?_, ?_, ?_, ?_⟩⟩
  · exact decode_specCmd_of_not_legal (not_legal_of_illegal_fields h) p
  · exact exec_decode_of_not_legal (by decide) s
  · exact exec_decode_of_not_legal (by decide) s
  · exact exec_decode_of_not_legal (by decide) s
  · exact exec_decode_of_not_legal (by decide) s

end Sys2Proof.Machine

/-! PROOFS. The obligations of spec/43_message.md on the whole-message functions and the framing (R68, R69, R70). The
model's recursions take one group off the front, where the spec's loops count groups; `List.range_succ_eq_map` takes the
first group off a loop too. `Encode` needs no induction against its loop: it is what the host reads from the answers to
`EncFrame` (R72), whose loop is R70's. -/

namespace Sys2Proof.Machine

/-! ### The framing of an encode message (R70) -/

/-- A position past the first complete group is a position in the bytes after that group. -/
theorem getD_after_group {i : Nat} (hi : 3 ≤ i) (b0 b1 b2 d : Byte) (rest : List Byte) :
    (b0 :: b1 :: b2 :: rest).getD i d = rest.getD (i - 3) d := by
  obtain ⟨j, rfl⟩ := Nat.exists_eq_add_of_le' hi
  rfl

/-- Settles O42, by the recursion of `encFrame`: after the first group, the loop and the partial group are those of the
bytes after it. -/
theorem encodeFraming : Obligations.EncodeFraming := by
  unfold Obligations.EncodeFraming
  intro b
  induction b using encFrame.induct with
  | case1 b0 b1 b2 rest ih =>
    have hlen : (b0 :: b1 :: b2 :: rest).length = rest.length + 3 := rfl
    rw [encFrame, ih, hlen, Nat.add_div_right _ (by decide), Nat.add_mod_right, List.range_succ_eq_map, List.map_cons,
      List.map_map, List.cons_append]
    congr 2
    split_ifs
    · rw [getD_after_group (by omega), getD_after_group (by omega), Nat.sub_right_comm, Nat.sub_right_comm _ 1,
        Nat.add_sub_cancel]
    · rw [getD_after_group (by omega), Nat.sub_right_comm, Nat.add_sub_cancel]
    · rfl
  | case2 | case3 | case4 => simp [encFrame]

/-! ### `Encode` is what the host reads from the answers to `EncFrame` (R68, R72) -/

/-- The host reads the four codes of an encoder response (R31, R45). -/
theorem hostText_encoderRsp (c0 c1 c2 c3 : Byte) : hostText [(encoderRsp c0 c1 c2 c3).word] = [c0, c1, c2, c3] := by
  simp [hostText, dataLanes, rspCnt_word, encoderRsp, symbolData_eq_payloadOf]

/-- What the host reads from the answer to one command. -/
def answerText (e : Bool) (i : Instr) : List Byte := hostText (commandResult i e).rsp.toList

theorem answerText_of_encoderRsp {e : Bool} {i : Instr} {c0 c1 c2 c3 : Byte}
    (h : commandResult i e = respond (encoderRsp c0 c1 c2 c3) e) : answerText e i = [c0, c1, c2, c3] := by
  rw [answerText, h]
  exact hostText_encoderRsp c0 c1 c2 c3

/-- A complete group's symbols are those of ENC3's answer, a partial group's those of ENC2's or ENC1's. -/
theorem encodeMsg_eq_flatMap_answerText (e : Bool) (b : List Byte) :
    encodeMsg b = (encFrame b).flatMap (answerText e) := by
  induction b using encFrame.induct with
  | case1 b0 b1 b2 rest ih =>
    rw [encodeMsg, encFrame, List.flatMap_cons, ← ih, answerText_of_encoderRsp (i := asmEnc3 b0 b1 b2) rfl]
    rfl
  | case2 b0 b1 => rw [encFrame, List.flatMap_singleton, answerText_of_encoderRsp (i := asmEnc2 b0 b1) rfl, encodeMsg]
  | case3 b0 => rw [encFrame, List.flatMap_singleton, answerText_of_encoderRsp (i := asmEnc1 b0) rfl, encodeMsg]
  | case4 => rfl

theorem answerText_asmEnc3 (e : Bool) (b0 b1 b2 : Byte) :
    answerText e (asmEnc3 b0 b1 b2) =
      [specAlpha (specField (specPack b0 b1 b2) 18), specAlpha (specField (specPack b0 b1 b2) 12),
        specAlpha (specField (specPack b0 b1 b2) 6), specAlpha (specField (specPack b0 b1 b2) 0)] := by
  rw [answerText_of_encoderRsp (i := asmEnc3 b0 b1 b2) rfl]
  simp only [← specPack_eq_enc3Value, split_eq_specFields, alpha_eq_specAlpha]

theorem answerText_asmEnc2 (e : Bool) (b0 b1 : Byte) :
    answerText e (asmEnc2 b0 b1) =
      [specAlpha (specField (specPack b0 b1 0#8) 18), specAlpha (specField (specPack b0 b1 0#8) 12),
        specAlpha (specField (specPack b0 b1 0#8) 6), 0x3D#8] := by
  rw [answerText_of_encoderRsp (i := asmEnc2 b0 b1) rfl]
  simp only [enc2Value_eq_enc3Value, ← specPack_eq_enc3Value, split_eq_specFields, alpha_eq_specAlpha, padCode]

theorem answerText_asmEnc1 (e : Bool) (b0 : Byte) :
    answerText e (asmEnc1 b0) =
      [specAlpha (specField (specPack b0 0#8 0#8) 18), specAlpha (specField (specPack b0 0#8 0#8) 12),
        0x3D#8, 0x3D#8] := by
  rw [answerText_of_encoderRsp (i := asmEnc1 b0) rfl]
  simp only [enc1Value_eq_enc3Value, ← specPack_eq_enc3Value, split_eq_specFields, alpha_eq_specAlpha, padCode]

/-- Settles O40: R70's loop over the commands, each replaced by the symbols of its answer, is R68's loop. -/
theorem encodeFollowsItsLoop : Obligations.EncodeFollowsItsLoop := by
  unfold Obligations.EncodeFollowsItsLoop
  intro b
  have hframe : encFrame b = _ := encodeFraming b
  rw [encodeMsg_eq_flatMap_answerText false, hframe, List.flatMap_append, List.flatMap_map]
  simp only [answerText_asmEnc3]
  congr 1
  obtain h | h | h : b.length % 3 = 0 ∨ b.length % 3 = 1 ∨ b.length % 3 = 2 := by omega
  · simp [h]
  · simp [h, answerText_asmEnc1]
  · simp [h, answerText_asmEnc2]

/-! ### The checks of `Decode`, in their order (R69) -/

theorem decodeMsg_of_length_error {t : List Byte} (h : t.length % 4 ≠ 0) : decodeMsg t = .error .invalidLength :=
  if_pos h

theorem decodeMsg_nil : decodeMsg [] = .ok [] := rfl

section Groups
variable {t : List Byte} (hlen : t.length % 4 = 0) (hpos : 0 < t.length)
include hlen hpos

theorem decodeMsg_of_not_sym (h : ((t.map classify).take (t.length - 4)).all CodeClass.isSym = false) :
    decodeMsg t = .error .invalidSymbol := by
  simp only [decodeMsg, hlen, hpos.ne', h, ne_eq, not_true, if_false, Bool.not_false, if_true]

/-- The final group is the last check, and the check before it reports the same error. -/
theorem decodeMsg_of_invalid_final (h : padValidLast ((t.map classify).drop (t.length - 4)) = none) :
    decodeMsg t = .error .invalidSymbol := by
  simp only [decodeMsg, hlen, hpos.ne', h, ne_eq, not_true, if_false, ite_self]

theorem decodeMsg_of_valid {p : Nat} (hsym : ((t.map classify).take (t.length - 4)).all CodeClass.isSym = true)
    (hpad : padValidLast ((t.map classify).drop (t.length - 4)) = some p) :
    decodeMsg t = .ok ((classBytes (t.map classify)).take ((classBytes (t.map classify)).length - p)) := by
  simp only [decodeMsg, hlen, hpos.ne', hsym, hpad, ne_eq, not_true, if_false, Bool.not_true, Bool.false_eq_true]

end Groups

/-! ### The classes by position, as R69 reads them -/

theorem take_all_isSym_iff (t : List Byte) :
    ((t.map classify).take (t.length - 4)).all CodeClass.isSym = true ↔
      ∀ j, j + 4 < t.length → (classify (t.getD j 0#8)).isSym = true := by
  simp only [List.all_eq_true, List.forall_mem_iff_getElem, List.getElem_take, List.getElem_map, List.length_take,
    List.length_map, Nat.min_eq_left (Nat.sub_le _ _), Nat.lt_sub_iff_add_lt]
  exact forall₂_congr fun j hj => by rw [List.getD_eq_getElem t 0#8 (Nat.lt_of_add_right_lt hj)]

theorem drop_eq_getD_cons {t : List Byte} {i : Nat} (h : i < t.length) (d : Byte) :
    t.drop i = t.getD i d :: t.drop (i + 1) := by
  rw [List.drop_eq_getElem_cons h, List.getD_eq_getElem t d h]

/-- The last four codes of a message. -/
theorem drop_length_sub_four {t : List Byte} (h : 4 ≤ t.length) (d : Byte) :
    t.drop (t.length - 4) =
      [t.getD (t.length - 4) d, t.getD (t.length - 3) d, t.getD (t.length - 2) d, t.getD (t.length - 1) d] := by
  obtain ⟨n, hn⟩ := Nat.exists_eq_add_of_le' h
  rw [hn, Nat.add_sub_cancel, drop_eq_getD_cons (by omega) d, drop_eq_getD_cons (by omega) d,
    drop_eq_getD_cons (by omega) d, drop_eq_getD_cons (by omega) d, List.drop_eq_nil_of_le hn.le]
  rfl

theorem padValidLast_drop {t : List Byte} (h : 4 ≤ t.length) :
    padValidLast ((t.map classify).drop (t.length - 4)) =
      padValid (classify (t.getD (t.length - 4) 0#8)) (classify (t.getD (t.length - 3) 0#8))
        (classify (t.getD (t.length - 2) 0#8)) (classify (t.getD (t.length - 1) 0#8)) := by
  rw [← List.map_drop, drop_length_sub_four h 0#8]
  rfl

/-- The loop over the groups; a position past the end, which no complete group has, reads any default. -/
theorem classBytes_eq_loop (d : CodeClass) (k : List CodeClass) :
    classBytes k = (List.range (k.length / 4)).flatMap fun g =>
      groupBytes (unpack (k.getD (4 * g) d).index (k.getD (4 * g + 1) d).index (k.getD (4 * g + 2) d).index
        (k.getD (4 * g + 3) d).index) := by
  induction k using classBytes.induct with
  | case1 k0 k1 k2 k3 rest ih =>
    have hlen : (k0 :: k1 :: k2 :: k3 :: rest).length = rest.length + 4 := rfl
    rw [classBytes, ih, hlen, Nat.add_div_right _ (by decide), List.range_succ_eq_map, List.flatMap_cons,
      List.flatMap_map]
    rfl
  | case2 k hk =>
    match k, hk with
    | [], _ | [_], _ | [_, _], _ | [_, _, _], _ => simp [classBytes]
    | k0 :: k1 :: k2 :: k3 :: rest, hk => exact absurd rfl (hk k0 k1 k2 k3 rest)

theorem classBytes_length (k : List CodeClass) : (classBytes k).length = 3 * (k.length / 4) := by
  rw [classBytes_eq_loop .bad, List.length_flatMap]
  simp [groupBytes, Nat.mul_comm]

/-- Settles O41: each check of `decodeMsg` is R69's, read by position, and so is its loop. -/
theorem decodeFollowsItsLoop : Obligations.DecodeFollowsItsLoop := by
  unfold Obligations.DecodeFollowsItsLoop
  intro t m k
  refine ⟨decodeMsg_of_length_error, fun hm => ?_, fun hlen hpos ⟨j, hj, hsym⟩ => ?_, fun hlen hpos hpad => ?_,
    fun p hlen hpos hsym hpad => ?_⟩
  · rw [List.length_eq_zero_iff.mp hm, decodeMsg_nil]
  · apply decodeMsg_of_not_sym hlen hpos
    rw [← Bool.not_eq_true, take_all_isSym_iff]
    exact fun hall => Bool.false_ne_true (hsym.symm.trans (hall j hj))
  · apply decodeMsg_of_invalid_final hlen hpos
    rw [padValidLast_drop (by omega)]
    exact hpad
  · rw [decodeMsg_of_valid hlen hpos ((take_all_isSym_iff t).mpr hsym) ((padValidLast_drop (by omega)).trans hpad),
      classBytes_length, classBytes_eq_loop (classify 0#8), List.length_map]
    simp only [List.getD_map, ← specUnpack_eq_unpack, groupBytes_eq_shifts, m, k]

end Sys2Proof.Machine

/-! PROOFS. The obligation of spec/60_exceptions.md on the error kinds (R78): the status each command answers, as a
function of the command and `dec_err`, and that an answer with an error status is otherwise empty. -/

namespace Sys2Proof.Machine

/-- The status of a DECF's answer (R62); no DECF has a count above 4. -/
def decfStatus (n : Nat) (c0 c1 c2 c3 : Byte) (decErr : Bool) : Status :=
  if n = 0 then if decErr then .invalidSymbol else .ok
  else if n ≤ 3 then .invalidLength
  else if decErr = true ∨ padValid (classify c0) (classify c1) (classify c2) (classify c3) = none then .invalidSymbol
  else .ok

/-- The status of a command's answer (R78), `OK` for NOP, which has no answer. -/
def answerStatus (i : Instr) (decErr : Bool) : Status :=
  match i with
  | .nop _ | .enc3 _ _ _ _ | .enc2 _ _ _ _ | .enc1 _ _ _ | .dec _ _ _ _ => .ok
  | .decf n c0 c1 c2 c3 => decfStatus n c0 c1 c2 c3 decErr
  | .illegal _ _ _ => .illegalCmd

/-! ### Which command has which status -/

theorem decfStatus_eq_invalidLength_iff (n : Nat) (c0 c1 c2 c3 : Byte) (e : Bool) :
    decfStatus n c0 c1 c2 c3 e = .invalidLength ↔ 1 ≤ n ∧ n ≤ 3 := by
  unfold decfStatus
  split_ifs <;> simp <;> omega

theorem decfStatus_eq_invalidSymbol_iff {n : Nat} (hn : n ≤ 4) (c0 c1 c2 c3 : Byte) (e : Bool) :
    decfStatus n c0 c1 c2 c3 e = .invalidSymbol ↔
      (n = 0 ∧ e = true) ∨
        (n = 4 ∧ (e = true ∨ padValid (classify c0) (classify c1) (classify c2) (classify c3) = none)) := by
  match n, hn with
  | 0, _ | 1, _ | 2, _ | 3, _ => simp [decfStatus]
  | 4, _ => simp [decfStatus, or_iff_not_imp_left]

theorem decfStatus_ne_illegalCmd (n : Nat) (c0 c1 c2 c3 : Byte) (e : Bool) :
    decfStatus n c0 c1 c2 c3 e ≠ .illegalCmd := by
  unfold decfStatus
  split_ifs <;> exact Status.noConfusion

theorem answerStatus_eq_invalidLength_iff (i : Instr) (e : Bool) :
    answerStatus i e = .invalidLength ↔ ∃ n c0 c1 c2 c3, i = .decf n c0 c1 c2 c3 ∧ 1 ≤ n ∧ n ≤ 3 := by
  cases i with
  | decf n c0 c1 c2 c3 => simp [answerStatus, decfStatus_eq_invalidLength_iff]
  | nop | enc3 | enc2 | enc1 | dec | illegal => simp [answerStatus]

theorem answerStatus_eq_invalidSymbol_iff {i : Instr} (hwf : i.wellFormed = true) (e : Bool) :
    answerStatus i e = .invalidSymbol ↔
      (e = true ∧ ∃ c0 c1 c2 c3, i = .decf 0 c0 c1 c2 c3) ∨
        ∃ c0 c1 c2 c3, i = .decf 4 c0 c1 c2 c3 ∧
          (e = true ∨ padValid (classify c0) (classify c1) (classify c2) (classify c3) = none) := by
  cases i with
  | decf n c0 c1 c2 c3 =>
    rw [answerStatus, decfStatus_eq_invalidSymbol_iff (of_decide_eq_true hwf)]
    simp [and_comm]
  | nop | enc3 | enc2 | enc1 | dec | illegal => simp [answerStatus]

theorem answerStatus_eq_illegalCmd_iff (i : Instr) (e : Bool) :
    answerStatus i e = .illegalCmd ↔ ∃ op aux p, i = .illegal op aux p := by
  cases i with
  | decf n c0 c1 c2 c3 => simp [answerStatus, decfStatus_ne_illegalCmd]
  | nop | enc3 | enc2 | enc1 | dec | illegal => simp [answerStatus]

/-! ### Every answer has its command's status, and nothing else when that is an error -/

/-- The response is `OK`, or carries no count and no data. -/
def Rsp.ErrorIsBare (r : Rsp) : Prop := r.st ≠ .ok → r.cnt = 0 ∧ r.data = 0#32

theorem emptyRsp_errorIsBare (st : Status) (last : Bool) : (emptyRsp st last).ErrorIsBare := fun _ => ⟨rfl, rfl⟩

theorem Rsp.errorIsBare_of_ok {r : Rsp} (h : r.st = .ok) : r.ErrorIsBare := fun hne => absurd h hne

/-- The answer responds with the given status, bare if that is an error. -/
def CmdResult.Reports (a : CmdResult) (st : Status) : Prop :=
  ∃ r e, a = respond r e ∧ r.st = st ∧ r.ErrorIsBare

theorem reports_of_ok {r : Rsp} (h : r.st = .ok) (e : Bool) : (respond r e).Reports .ok :=
  ⟨r, e, rfl, h, Rsp.errorIsBare_of_ok h⟩

theorem reports_emptyRsp (st : Status) (last e : Bool) : (respond (emptyRsp st last) e).Reports st :=
  ⟨_, e, rfl, rfl, emptyRsp_errorIsBare st last⟩

/-- DEC reports no error; its closing DECF does (R61). -/
theorem decResult_reports (c0 c1 c2 c3 : Byte) (e : Bool) : (decResult c0 c1 c2 c3 e).Reports .ok := by
  dsimp only [decResult]
  split
  · exact reports_of_ok rfl _
  · exact reports_of_ok rfl _

theorem decfResult_reports {n : Nat} (hn : n ≤ 4) (c0 c1 c2 c3 : Byte) (e : Bool) :
    (decfResult n c0 c1 c2 c3 e).Reports (decfStatus n c0 c1 c2 c3 e) := by
  unfold decfStatus
  split_ifs with hzero hpending hthree herror
  · subst hzero hpending
    exact reports_emptyRsp .invalidSymbol true false
  · subst hzero
    rw [decfResult_zero, if_neg hpending]
    exact reports_emptyRsp .ok true false
  · rw [decfResult_lengthError (Nat.pos_of_ne_zero hzero) (Nat.lt_succ_of_le hthree)]
    exact reports_emptyRsp .invalidLength true false
  · obtain rfl : n = 4 := by omega
    rw [decfResult_four, finalGroupResult_of_error herror]
    exact reports_emptyRsp .invalidSymbol true false
  · obtain rfl : n = 4 := by omega
    obtain ⟨he, hvalid⟩ := not_or.mp herror
    obtain ⟨p, hp⟩ := Option.ne_none_iff_exists'.mp hvalid
    rw [decfResult_four, finalGroupResult_of_valid p (Bool.eq_false_of_not_eq_true he) rfl rfl rfl rfl hp]
    exact reports_of_ok rfl false

/-- NOP answers nothing; any other command reports its status. -/
theorem nop_or_commandResult_reports {i : Instr} (hwf : i.wellFormed = true) (e : Bool) :
    (∃ ign, i = .nop ign) ∨ (commandResult i e).Reports (answerStatus i e) := by
  cases i with
  | nop ign => exact .inl ⟨ign, rfl⟩
  | enc3 | enc2 | enc1 => exact .inr (reports_of_ok rfl e)
  | dec c0 c1 c2 c3 => exact .inr (decResult_reports c0 c1 c2 c3 e)
  | decf n c0 c1 c2 c3 => exact .inr (decfResult_reports (of_decide_eq_true hwf) c0 c1 c2 c3 e)
  | illegal => exact .inr (reports_emptyRsp .illegalCmd false e)

/-! ### What the host reads of an error -/

theorem Status.code_inj {a b : Status} : a.code = b.code ↔ a = b := by
  cases a <;> cases b <;> decide

/-- On a free register: the error status read after a command is the command's, and an error carries nothing else. -/
theorem exec_answerStatus {i : Instr} {s : State} (hwf : i.wellFormed = true) (hfree : s.rspValid = false) :
    ∃ t, exec i s = .next t ∧
      (∀ st, st ≠ .ok → (t.rspValid = true ∧ rspSt t.rspQ = st.code ↔ answerStatus i s.decErr = st)) ∧
      (t.rspValid = true → rspSt t.rspQ ≠ 0#2 → rspCnt t.rspQ = 0 ∧ rspData t.rspQ = 0#32) := by
  rcases nop_or_commandResult_reports hwf s.decErr with ⟨ign, rfl⟩ | ⟨r, e, hr, hst, hbare⟩
  · refine ⟨s, exec_nop ign s, fun st hne => ?_, fun hv => absurd hfree (by simp [hv])⟩
    simp [hfree, answerStatus, hne.symm]
  · refine ⟨_, exec_eq_complete i s, ?_⟩
    rw [hr, State.complete_respond]
    refine ⟨fun st _ => ?_, fun _ hne => ?_⟩
    · simp [Status.code_inj, hst]
    · obtain ⟨hcnt, hdata⟩ := hbare fun hok => hne (by rw [rspSt_word, hok]; rfl)
      rw [rspCnt_word r (by omega), rspData_word]
      exact ⟨hcnt, hdata⟩

/-- Settles O25: the status of the answer, and which commands have which error status. -/
theorem errorKindsAndWhoRaisesThem : Obligations.ErrorKindsAndWhoRaisesThem := by
  unfold Obligations.ErrorKindsAndWhoRaisesThem
  intro i s hwf hfree
  obtain ⟨t, ht, hstatus, hbare⟩ := exec_answerStatus hwf hfree
  refine ⟨t, ht, ?_, ?_, ?_, hbare⟩
  · exact (hstatus .invalidLength Status.noConfusion).trans (answerStatus_eq_invalidLength_iff i s.decErr)
  · exact (hstatus .invalidSymbol Status.noConfusion).trans (answerStatus_eq_invalidSymbol_iff hwf s.decErr)
  · exact (hstatus .illegalCmd Status.noConfusion).trans (answerStatus_eq_illegalCmd_iff i s.decErr)

end Sys2Proof.Machine

/-! PROOFS. The obligations of spec/70_reset_and_hazards.md on one edge with its pins listed: reset (R91), acceptance and
the waiting response (R93), and the pseudocode of an edge (R94). -/

namespace Sys2Proof.Machine

/-! ### The ports under the listed pins (R93) -/

/-- The block is not ready exactly when it is being reset or holds a response that the host does not take. -/
theorem State.cmdReady_eq_false_iff (s : State) (p : Pins) :
    s.cmdReady p = false ↔ p.rst = true ∨ (s.rspValid = true ∧ p.rspReady = false) := by
  cases hr : p.rst <;> simp [State.cmdReady, hr]

/-- The pseudocode's taking of a response (R94), as `State.takeResponse` writes it. -/
theorem rspValid_taken_eq_ite (valid ready : Bool) :
    (valid && !ready) = if valid && ready then false else valid := by
  cases valid <;> cases ready <;> rfl

/-! ### What each kind of edge does (R91, R93, R94) -/

section ListedPins
variable {s : State} {p : Pins} {rest : List Pins} (hs : s.inputs = p :: rest)
include hs

theorem State.dropPins_of_cons : s.dropPins = { s with inputs := rest } := by
  rw [State.dropPins, hs, List.tail_cons]

theorem State.acceptedCmd_of_cons :
    s.acceptedCmd = if p.cmdValid = true ∧ s.cmdReady p = true then [p.cmd] else [] := by
  simp only [State.acceptedCmd, State.pins_cons s p rest hs, Bool.and_eq_true]

theorem step_of_reset (hr : p.rst = true) : step s = .next { State.reset with inputs := rest } := by
  have haction : s.edgeAction p = .reset := if_pos hr
  rw [step, State.pins_cons s p rest hs, haction, State.dropPins_of_cons hs]
  rfl

/-- An accepting edge takes what waits and completes the answer of the word on `cmd`. -/
theorem step_of_accepts (hr : p.rst = false) (hv : p.cmdValid = true) (hf : s.rspValid = false ∨ p.rspReady = true) :
    step s = .next ((({ s with inputs := rest } : State).takeResponse p.rspReady).complete (execWord p.cmd s.decErr)) := by
  have hready : s.cmdReady p = true := (s.cmdReady_iff p).mpr ⟨hr, hf⟩
  have haction : s.edgeAction p = .accept p.cmd := by simp [State.edgeAction, hr, hv, hready]
  rw [step, State.pins_cons s p rest hs, haction, State.dropPins_of_cons hs]
  exact exec_decode p.cmd _

/-- An edge that neither resets nor accepts only takes what waits. -/
theorem step_of_holds (hr : p.rst = false) (hn : ¬(p.cmdValid = true ∧ (s.rspValid = false ∨ p.rspReady = true))) :
    step s = .next (({ s with inputs := rest } : State).takeResponse p.rspReady) := by
  have hnot : ¬(p.cmdValid = true ∧ s.cmdReady p = true) := fun ⟨hv, hready⟩ =>
    hn ⟨hv, ((s.cmdReady_iff p).mp hready).2⟩
  have haction : s.edgeAction p = .hold := by
    rw [State.edgeAction, hr, if_neg Bool.false_ne_true, if_neg (by rwa [Bool.and_eq_true])]
  rw [step, State.pins_cons s p rest hs, haction, State.dropPins_of_cons hs]

/-- A response that waits and is neither taken nor reset blocks the edge: it uses up its pins and does nothing else. -/
theorem step_of_untaken (hw : s.rspValid = true) (hr : p.rst = false) (hy : p.rspReady = false) :
    step s = .next { s with inputs := rest } := by
  have htake : ({ s with inputs := rest } : State).takeResponse p.rspReady = { s with inputs := rest } := by
    simp [State.takeResponse, hy]
  rw [step_of_holds hs hr (by simp [hw, hy]), htake]

/-- While `cmd_ready` is 0 an edge resets or does nothing: of the pins it reads `rst` alone. -/
theorem step_of_not_ready (hready : s.cmdReady p = false) :
    step s = .next (if p.rst then { State.reset with inputs := rest } else { s with inputs := rest }) := by
  cases hr : p.rst with
  | true => exact step_of_reset hs hr
  | false =>
    rcases (s.cmdReady_eq_false_iff p).mp hready with hreset | ⟨hw, hy⟩
    · exact absurd hreset (by simp [hr])
    · exact step_of_untaken hs hw hr hy

/-- The edge of R94, up to what an accepted command leaves in the registers. -/
theorem step_of_cons :
    step s = .next (
      if p.rst then { State.reset with inputs := rest }
      else if p.cmdValid && (!s.rspValid || p.rspReady) then
        (({ s with inputs := rest } : State).takeResponse p.rspReady).complete (execWord p.cmd s.decErr)
      else ({ s with inputs := rest } : State).takeResponse p.rspReady) := by
  have hacc : (p.cmdValid && (!s.rspValid || p.rspReady)) = true ↔
      p.cmdValid = true ∧ (s.rspValid = false ∨ p.rspReady = true) := by simp
  split_ifs with hr ha
  · exact step_of_reset hs hr
  · obtain ⟨hv, hf⟩ := hacc.mp ha
    exact step_of_accepts hs (Bool.eq_false_of_not_eq_true hr) hv hf
  · exact step_of_holds hs (Bool.eq_false_of_not_eq_true hr) (mt hacc.mpr ha)

end ListedPins

/-! ### The obligations -/

/-- Settles O28: the edge is R94's, an answer being a response or none; while the block is not ready the two edges that
differ in `cmd` do the same, which is what `rst` says. -/
theorem edgeFollowsThePseudocode : Obligations.EdgeFollowsThePseudocode := by
  unfold Obligations.EdgeFollowsThePseudocode
  refine ⟨fun s p rest hs => ?_, fun s p c rest hready => ?_, fun s p => rfl⟩
  · rw [step_of_cons hs, ← rspValid_taken_eq_ite]
    generalize execWord p.cmd s.decErr = answer
    obtain ⟨_ | r, e⟩ := answer
    · rfl
    · rfl
  · rw [step_of_not_ready (s := { s with inputs := { p with cmd := c } :: rest }) rfl hready,
      step_of_not_ready (s := { s with inputs := p :: rest }) rfl hready]

/-- Settles O29: the reset edge clears every register, and `cmd_ready` is 0 at it. -/
theorem resetEdgeReachesReset : Obligations.ResetEdgeReachesReset := by
  unfold Obligations.ResetEdgeReachesReset
  intro s p rest hs hr
  have hready : s.cmdReady p = false := (s.cmdReady_eq_false_iff p).mpr (.inl hr)
  refine ⟨step_of_reset hs hr, hready, ?_⟩
  rw [State.acceptedCmd_of_cons hs, if_neg (by simp [hready])]

/-- Settles O31, from the formula of `cmd_ready` and the edge that a waiting response blocks. -/
theorem acceptanceAndNoLostResponse : Obligations.AcceptanceAndNoLostResponse := by
  unfold Obligations.AcceptanceAndNoLostResponse
  exact ⟨State.cmdReady_iff, fun s p rest hs => State.acceptedCmd_of_cons hs,
    fun s p rest hs hw hr hy => step_of_untaken hs hw hr hy⟩

end Sys2Proof.Machine

/-! PROOFS. The obligations of spec/30_encoding.md on the encoder of command words: it inverts the decoder on
well-formed commands and the decoder inverts it on every word (sections 1 and 2), and its words for the assembler
forms (section 6). -/

namespace Sys2Proof.Machine

/-! ### Decoding an encoded command -/

theorem decode_cmdWord_of_legal {op aux : BitVec 4} (h : legal op aux = true) (p : Payload) :
    decode (cmdWord op aux p) = decodeLegal op aux p := by
  rw [← specCmd_eq_cmdWord, decode_specCmd_of_legal h]

theorem decode_cmdWord_of_not_legal {op aux : BitVec 4} (h : ¬legal op aux = true) (p : Payload) :
    decode (cmdWord op aux p) = .illegal op aux p := by
  rw [← specCmd_eq_cmdWord, decode_specCmd_of_not_legal h]

/-- The two readings of R41 agree: the illegal rows are those that are not legal. -/
theorem illegalFields_eq_not_legal : ∀ op aux : BitVec 4, illegalFields op aux = !legal op aux := by decide

/-- ENC1's payload is two lanes and the low half, which holds no operand (R42). -/
theorem enc1Payload_fields (hi b : Byte) (lo : BitVec 16) :
    lane3 (hi ++ b ++ lo) = hi ∧ lane2 (hi ++ b ++ lo) = b ∧ (hi ++ b ++ lo).extractLsb' 0 16 = lo := by
  refine ⟨?_, ?_, ?_⟩
  · rw [lane3, BitVec.extractLsb'_append_eq_of_le (by decide), BitVec.extractLsb'_append_eq_of_le (by decide)]
    simp
  · rw [lane2, BitVec.extractLsb'_append_eq_of_le (by decide), BitVec.extractLsb'_append_eq_of_add_le (by decide)]
    simp
  · rw [BitVec.extractLsb'_append_eq_of_add_le (by decide), BitVec.extractLsb'_eq_self]

theorem enc1Payload_of_fields (p : Payload) : lane3 p ++ lane2 p ++ p.extractLsb' 0 16 = p := by
  have hhigh : lane3 p ++ lane2 p = p.extractLsb' 16 16 :=
    BitVec.extractLsb'_append_extractLsb'_eq_extractLsb' rfl
  have hall : p.extractLsb' 16 16 ++ p.extractLsb' 0 16 = p.extractLsb' 0 32 :=
    BitVec.extractLsb'_append_extractLsb'_eq_extractLsb' rfl
  rw [hhigh, hall, BitVec.extractLsb'_eq_self]

/-- Settles O1, by cases on the command: its row's fields are legal, and its operands are the fields of its payload. -/
theorem decodeUndoesEncode : Obligations.DecodeUndoesEncode := by
  unfold Obligations.DecodeUndoesEncode
  intro i hwf
  cases i with
  | nop p => exact decode_cmdWord_of_legal rfl p
  | enc3 | enc2 | dec =>
    rw [encode, decode_cmdWord_of_legal rfl]
    simp [decodeLegal]
  | enc1 ignHi b0 ignLo =>
    obtain ⟨h3, h2, hlow⟩ := enc1Payload_fields ignHi b0 ignLo
    rw [encode, decode_cmdWord_of_legal rfl]
    simp [decodeLegal, h3, h2, hlow]
  | decf n c0 c1 c2 c3 =>
    rw [encode, ← specCmd_eq_cmdWord, decode_specCmd_decf (of_decide_eq_true hwf)]
    simp
  | illegal op aux p =>
    apply decode_cmdWord_of_not_legal
    rw [Instr.wellFormed, illegalFields_eq_not_legal] at hwf
    simpa using hwf

/-- The word of a well-formed command is answered as the command (R23). -/
theorem execWord_encode {i : Instr} (hwf : i.wellFormed = true) (e : Bool) :
    execWord (encode i) e = commandResult i e := by
  rw [execWord_eq_commandResult, decodeUndoesEncode i hwf]

/-! ### Encoding a decoded word -/

theorem decodeLegal_wellFormed {op aux : BitVec 4} (h : legal op aux = true) (p : Payload) :
    (decodeLegal op aux p).wellFormed = true := by
  rcases legal_cases h with ⟨-, rfl | rfl | rfl | rfl | rfl⟩ | ⟨rfl, -⟩
  case inr => exact decide_eq_true ((legal_decf_iff aux).mp h)
  all_goals rfl

theorem encode_decodeLegal {op aux : BitVec 4} (h : legal op aux = true) (p : Payload) :
    encode (decodeLegal op aux p) = cmdWord op aux p := by
  rcases legal_cases h with ⟨rfl, rfl | rfl | rfl | rfl | rfl⟩ | ⟨rfl, -⟩
  · rfl
  · exact congrArg (cmdWord 1#4 0#4) (payloadOf_lanes p)
  · exact congrArg (cmdWord 2#4 0#4) (payloadOf_lanes p)
  · exact congrArg (cmdWord 3#4 0#4) (enc1Payload_of_fields p)
  · exact congrArg (cmdWord 4#4 0#4) (payloadOf_lanes p)
  · exact congrArg₂ (cmdWord 5#4) ((BitVec.ofNat_toNat 4 aux).trans (BitVec.setWidth_eq aux)) (payloadOf_lanes p)

theorem decode_wellFormed (w : CmdWord) : (decode w).wellFormed = true := by
  rw [decode]
  split_ifs with h
  · exact decodeLegal_wellFormed h _
  · rw [Instr.wellFormed, illegalFields_eq_not_legal]
    simpa using h

theorem encode_decode (w : CmdWord) : encode (decode w) = w := by
  rw [decode]
  split_ifs with h
  · rw [encode_decodeLegal h, cmdWord_fields]
  · exact cmdWord_fields w

/-- Settles O2: a decoded word is well-formed and encodes back; by O1 no other well-formed command has that word. -/
theorem encodeUndoesDecode : Obligations.EncodeUndoesDecode := by
  unfold Obligations.EncodeUndoesDecode
  refine fun w => ⟨decode_wellFormed w, encode_decode w, fun i hwf hi => ?_⟩
  rw [← hi, decodeUndoesEncode i hwf]

/-- Settles O5: seven closed words, each decoded by evaluation. -/
theorem wordsDecodeAsWritten : Obligations.WordsDecodeAsWritten := by
  unfold Obligations.WordsDecodeAsWritten
  decide

/-! ### The words of the assembler forms (R49) -/

/-- A lane placed in a payload is placed in the command word at the same bits. -/
theorem setWidth_placed_lane (b : Byte) {lo : Nat} (h : lo ≤ 24) :
    (b.setWidth 32 <<< lo).setWidth 40 = b.setWidth 40 <<< lo := by
  apply BitVec.eq_of_getLsbD_eq; intro i hi
  rw [BitVec.getLsbD_setWidth, getLsbD_placed _ _ _ _ hi]
  by_cases h32 : i < 32
  · rw [getLsbD_placed _ _ _ _ h32]
    simp [hi]
  · rw [BitVec.getLsbD_of_ge _ i (by omega), BitVec.getLsbD_of_ge b (i - lo) (by omega), Bool.and_false, Bool.and_false]

/-- The command word by shift and or: R38 with the lanes of R30. -/
theorem cmdWord_payloadOf (op aux : BitVec 4) (l3 l2 l1 l0 : Byte) :
    cmdWord op aux (payloadOf l3 l2 l1 l0) =
      op.setWidth 40 <<< 36 ||| aux.setWidth 40 <<< 32 ||| (l3.setWidth 40 <<< 24 ||| l2.setWidth 40 <<< 16 |||
        l1.setWidth 40 <<< 8 ||| l0.setWidth 40) := by
  rw [← specCmd_eq_cmdWord, ← specLanes_eq_payloadOf, specCmd, specLanes]
  simp [BitVec.setWidth_or, setWidth_placed_lane]

/-- ENC1's payload with its low half 0, lane by lane. -/
theorem enc1Payload_eq_payloadOf (hi b : Byte) : hi ++ b ++ 0#16 = payloadOf hi b 0#8 0#8 := by
  rw [← payloadOf_lanes (hi ++ b ++ 0#16)]
  obtain ⟨h3, h2, -⟩ := enc1Payload_fields hi b 0#16
  have h1 : lane1 (hi ++ b ++ 0#16) = 0#8 := by
    rw [lane1, BitVec.extractLsb'_append_eq_of_add_le (by decide), BitVec.extractLsb'_zero]
  have h0 : lane0 (hi ++ b ++ 0#16) = 0#8 := by
    rw [lane0, BitVec.extractLsb'_append_eq_of_add_le (by decide), BitVec.extractLsb'_zero]
  rw [h3, h2, h1, h0]

/-- Settles O6, from the shift-and-or form of a command word, in which the unused lanes vanish. -/
theorem assemblerFormsEncode : Obligations.AssemblerFormsEncode := by
  unfold Obligations.AssemblerFormsEncode
  intro b0 b1 b2 b3
  have hnop : cmdWord 0#4 0#4 0#32 = 0#40 := by decide
  simp [encode, asmNop, asmEnc3, asmEnc2, asmEnc1, asmDec, asmDecf, enc1Payload_eq_payloadOf, cmdWord_payloadOf, hnop,
    BitVec.or_assoc]

end Sys2Proof.Machine

/-! PROOFS. What the datapath's parts undo of each other: the lookup and the alphabet (spec/41_decoder.md section 1),
the unpacker and the shifter tree (spec/40_encoder.md section 1). -/

namespace Sys2Proof.Machine

/-! ### The lookup and the alphabet (R47, R58) -/

@[simp] theorem classify_alpha : ∀ i : Sextet, classify (alpha i) = .sym i := by decide

theorem alpha_index_of_isSym : ∀ c : Byte, (classify c).isSym = true → alpha (classify c).index = c := by decide

theorem eq_pad_of_classify : ∀ c : Byte, classify c = .pad → c = 0x3D#8 := by decide

theorem classify_eq_sym_iff (c : Byte) (i : Sextet) : classify c = .sym i ↔ c = alpha i := by
  constructor
  · intro h
    have hc := alpha_index_of_isSym c (by rw [h]; rfl)
    rw [← hc, h, CodeClass.index_sym]
  · rintro rfl
    exact classify_alpha i

theorem classify_eq_pad_iff (c : Byte) : classify c = .pad ↔ c = 0x3D#8 :=
  ⟨eq_pad_of_classify c, fun h => h ▸ classify_pad⟩

/-- A code with neither of the other classes is `BAD`. -/
theorem classify_eq_bad_iff (c : Byte) : classify c = .bad ↔ c ≠ 0x3D#8 ∧ ∀ i : Sextet, c ≠ alpha i := by
  simp only [ne_eq, ← classify_eq_sym_iff, ← classify_eq_pad_iff]
  cases classify c with
  | sym | pad | bad => simp

/-- Settles O9: the ROM's closed form, and the three classes by the alphabet. -/
theorem classInvertsAlphabet : Obligations.ClassInvertsAlphabet := by
  unfold Obligations.ClassInvertsAlphabet
  exact ⟨alpha_eq_specAlpha, fun c => ⟨classify_eq_sym_iff c, classify_eq_pad_iff c, classify_eq_bad_iff c⟩⟩

/-! ### The unpacker and the shifter tree (R29, R51) -/

/-- The four fields cover the group exactly once. -/
theorem unpack_split (v : Group) : unpack (split v).x0 (split v).x1 (split v).x2 (split v).x3 = v := by
  have h01 : (split v).x0 ++ (split v).x1 = v.extractLsb' 12 12 :=
    BitVec.extractLsb'_append_extractLsb'_eq_extractLsb' rfl
  have h012 : v.extractLsb' 12 12 ++ (split v).x2 = v.extractLsb' 6 18 :=
    BitVec.extractLsb'_append_extractLsb'_eq_extractLsb' rfl
  have h0123 : v.extractLsb' 6 18 ++ (split v).x3 = v.extractLsb' 0 24 :=
    BitVec.extractLsb'_append_extractLsb'_eq_extractLsb' rfl
  rw [unpack, h01, h012, h0123, BitVec.extractLsb'_eq_self]

theorem groupBytes_enc3Value (b0 b1 b2 : Byte) : groupBytes (enc3Value b0 b1 b2) = [b0, b1, b2] := by
  have h0 : (enc3Value b0 b1 b2).extractLsb' 16 8 = b0 := by
    rw [enc3Value, BitVec.extractLsb'_append_eq_of_le (by decide), BitVec.extractLsb'_append_eq_of_le (by decide),
      BitVec.extractLsb'_eq_self]
  have h1 : (enc3Value b0 b1 b2).extractLsb' 8 8 = b1 := by
    rw [enc3Value, BitVec.extractLsb'_append_eq_of_le (by decide), BitVec.extractLsb'_append_eq_of_add_le (by decide),
      BitVec.extractLsb'_eq_self]
  have h2 : (enc3Value b0 b1 b2).extractLsb' 0 8 = b2 := by
    rw [enc3Value, BitVec.extractLsb'_append_eq_of_add_le (by decide), BitVec.extractLsb'_eq_self]
  rw [groupBytes, h0, h1, h2]

/-- Settles O11: unpacking undoes splitting, and the bytes of a packed group are those packed. -/
theorem unpackUndoesSplit : Obligations.UnpackUndoesSplit := by
  unfold Obligations.UnpackUndoesSplit
  refine ⟨unpack_split, fun b0 b1 b2 => ?_⟩
  dsimp only
  rw [unpack_split, specPack_eq_enc3Value, groupBytes_enc3Value]

/-! ### The last index of a partial group (R54, R55) -/

theorem split_enc2Value_x2 (b0 b1 : Byte) : (split (enc2Value b0 b1)).x2 = b1.extractLsb' 0 4 ++ 0#2 := by
  have hlow : (b0 ++ b1).extractLsb' 0 4 = b1.extractLsb' 0 4 := BitVec.extractLsb'_append_eq_of_add_le (by decide)
  have hfield : (split (enc2Value b0 b1)).x2 = (b0 ++ b1 ++ 0#8).extractLsb' 6 6 := rfl
  rw [hfield, BitVec.extractLsb'_append_eq_ite]
  simp [hlow]

theorem split_enc1Value_x1 (b0 : Byte) : (split (enc1Value b0)).x1 = b0.extractLsb' 0 2 ++ 0#4 := by
  have hfield : (split (enc1Value b0)).x1 = (b0 ++ 0#16).extractLsb' 12 6 := rfl
  rw [hfield, BitVec.extractLsb'_append_eq_ite]
  simp

/-- The symbols of the four indices that end in four zero bits: `A`, `Q`, `g`, `w`. -/
theorem alpha_append_zero : ∀ x : BitVec 2,
    alpha (x ++ 0#4) = 0x41#8 ∨ alpha (x ++ 0#4) = 0x51#8 ∨ alpha (x ++ 0#4) = 0x67#8 ∨ alpha (x ++ 0#4) = 0x77#8 := by
  decide

/-- Settles O16: the zero bytes of a partial group fill the low bits of its last index. -/
theorem partialGroupLastIndex : Obligations.PartialGroupLastIndex := by
  unfold Obligations.PartialGroupLastIndex
  intro b0 b1
  refine ⟨split_enc2Value_x2 b0 b1, split_enc1Value_x1 b0, ?_⟩
  rw [split_enc1Value_x1]
  exact alpha_append_zero _

end Sys2Proof.Machine

/-! PROOFS. The derived properties of the encoder commands (spec/40_encoder.md section 3): where their pads stand, and
that they, NOP and illegal words do not see `dec_err`. -/

namespace Sys2Proof.Machine

/-! ### The pads of an encoder response -/

theorem dataLanes_encoderRsp (c0 c1 c2 c3 : Byte) : dataLanes (encoderRsp c0 c1 c2 c3).word = [c0, c1, c2, c3] := by
  simp [dataLanes, encoderRsp, symbolData_eq_payloadOf]

/-- No symbol of the alphabet is the pad. -/
theorem alpha_ne_padCode (i : Sextet) : alpha i ≠ padCode := by
  rw [alpha_eq_specAlpha]
  exact specAlpha_ne_pad i

theorem alpha_beq_padCode (i : Sextet) : (alpha i == padCode) = false :=
  beq_false_of_ne (alpha_ne_padCode i)

/-- A command answered by four codes leaves these codes in the lanes of the response register. -/
theorem exec_dataLanes {i : Instr} {s : State} {c0 c1 c2 c3 : Byte} {e : Bool}
    (h : commandResult i s.decErr = respond (encoderRsp c0 c1 c2 c3) e) :
    ∃ t, exec i s = .next t ∧ dataLanes t.rspQ = [c0, c1, c2, c3] := by
  refine ⟨_, exec_eq_complete i s, ?_⟩
  rw [h]
  exact dataLanes_encoderRsp c0 c1 c2 c3

/-- Settles O17: the lanes of each answer are alphabet symbols, which are no pads, and then pads. -/
theorem encoderPadsStandLast : Obligations.EncoderPadsStandLast := by
  unfold Obligations.EncoderPadsStandLast
  intro s g b0 b1 b2 g2
  obtain ⟨t3, ht3, hlanes3⟩ := exec_dataLanes (i := .enc3 g b0 b1 b2) (s := s) rfl
  obtain ⟨t2, ht2, hlanes2⟩ := exec_dataLanes (i := .enc2 g b0 b1 b2) (s := s) rfl
  obtain ⟨t1, ht1, hlanes1⟩ := exec_dataLanes (i := .enc1 g b0 g2) (s := s) rfl
  refine ⟨⟨t3, ht3, ?_⟩, ⟨t2, ht2, ?_⟩, t1, ht1, ?_⟩
  · simp [hlanes3, alpha_beq_padCode]
  · simp [hlanes2, alpha_beq_padCode]
  · simp [hlanes1, alpha_beq_padCode]

/-! ### The commands that do not see `dec_err` (R14, R56) -/

/-- Every command but DEC and DECF has one response, whatever `dec_err`, and keeps `dec_err`. -/
theorem commandResult_of_not_decoder {i : Instr} (hdec : ∀ c0 c1 c2 c3, i ≠ .dec c0 c1 c2 c3)
    (hdecf : ∀ n c0 c1 c2 c3, i ≠ .decf n c0 c1 c2 c3) (e : Bool) :
    commandResult i e = { rsp := (commandResult i false).rsp, decErr := e } := by
  cases i with
  | dec c0 c1 c2 c3 => exact absurd rfl (hdec c0 c1 c2 c3)
  | decf n c0 c1 c2 c3 => exact absurd rfl (hdecf n c0 c1 c2 c3)
  | nop | enc3 | enc2 | enc1 | illegal => rfl

/-- Completing one response on two states that differ in `dec_err` leaves states that differ in `dec_err`. -/
theorem State.complete_update_decErr (s : State) (r : Option RspWord) (d e : Bool) :
    ({ s with decErr := e } : State).complete { rsp := r, decErr := e } =
      { s.complete { rsp := r, decErr := d } with decErr := e } := by
  cases r with
  | none | some => rfl

/-- Settles O24: both states complete the same response and keep their own `dec_err`. -/
theorem decErrHiddenFromOtherCommands : Obligations.DecErrHiddenFromOtherCommands := by
  unfold Obligations.DecErrHiddenFromOtherCommands
  intro i s e hdec hdecf
  have hresult := commandResult_of_not_decoder hdec hdecf
  refine ⟨_, exec_eq_complete i s, ?_⟩
  rw [exec_eq_complete, hresult s.decErr, hresult e, State.complete_update_decErr]

end Sys2Proof.Machine

/-! PROOFS. The obligations of spec/70_reset_and_hazards.md on runs of edges: the step at an accepting edge, its
response after `LAT` edges, a block that never stops, a host that never takes a response, and one that always does. -/

namespace Sys2Proof.Machine

/-! ### An accepting edge (R94, R95) -/

section AcceptingEdge
variable {s : State} {p : Pins} {rest : List Pins} (hs : s.inputs = p :: rest) (hr : p.rst = false)
  (hv : p.cmdValid = true) (hf : s.rspValid = false ∨ p.rspReady = true)
include hs hr hv hf

/-- At an accepting edge the answer completes on a free register. -/
theorem step_of_accepts_free :
    step s = .next (({ s with inputs := rest, rspValid := false } : State).complete (execWord p.cmd s.decErr)) := by
  have hfree : (s.rspValid && !p.rspReady) = false := s.takeResponse_free hf
  rw [step_of_accepts hs hr hv hf, State.takeResponse, hfree]

/-- After an accepting edge the response of the accepted command waits, and nothing else. -/
theorem pendingRsp_of_accepts :
    ∃ t, step s = .next t ∧ t.pendingRsp = (execWord p.cmd s.decErr).rsp.toList :=
  ⟨_, step_of_accepts_free hs hr hv hf, State.pendingRsp_complete rfl _⟩

end AcceptingEdge

/-- Settles O27: an accepting edge completes the answer of the word, as the decoded command does. -/
theorem stepRunsTheDecodedCommand : Obligations.StepRunsTheDecodedCommand := by
  unfold Obligations.StepRunsTheDecodedCommand
  rintro s p rest i hs hr hv hf rfl -
  rw [step_of_accepts_free hs hr hv hf, exec_decode]

/-- Settles O34: `LAT` is one edge, the accepting one. -/
theorem responseAfterLatency : Obligations.ResponseAfterLatency := by
  unfold Obligations.ResponseAfterLatency
  intro s p rest r hs hr hv hf hrsp
  obtain ⟨t, hstep, hpending⟩ := pendingRsp_of_accepts hs hr hv hf
  refine ⟨t, runEdges_succ hstep 0, ?_⟩
  rw [hpending, hrsp, Option.toList_some]

/-! ### Runs of edges -/

/-- Settles O32, by induction on the edges: each has a next state and uses up its own pins. -/
theorem blockNeverStops : Obligations.BlockNeverStops := by
  unfold Obligations.BlockNeverStops
  intro k
  induction k with
  | zero => exact fun s => ⟨s, rfl, rfl⟩
  | succ k ih =>
    intro s
    obtain ⟨s', hstep, hinputs⟩ := step_total s
    obtain ⟨t, hrun, ht⟩ := ih s'
    refine ⟨t, (runEdges_succ hstep k).trans hrun, ?_⟩
    rw [ht, hinputs, List.drop_tail]

/-- Settles O33, by induction on the edges: the first is blocked by the waiting response, and so is the run after it. -/
theorem untakenResponseStalls : Obligations.UntakenResponseStalls := by
  unfold Obligations.UntakenResponseStalls
  intro k
  induction k with
  | zero => exact fun s _ _ _ => ⟨rfl, rfl, rfl⟩
  | succ k ih =>
    intro s hw hlen hpins
    cases hs : s.inputs with
    | nil => simp [hs] at hlen
    | cons p rest =>
      rw [hs, List.take_succ_cons, List.forall_mem_cons] at hpins
      obtain ⟨⟨hr, hy⟩, hrest⟩ := hpins
      have hstep := step_of_untaken hs hw hr hy
      have hp := State.pins_cons s p rest hs
      have haccepted : s.acceptedCmd = [] := State.acceptedCmd_of_holds (.inr ⟨hw, by rw [hp, hy]⟩)
      have htaken : s.takenRsp = [] := by simp [State.takenRsp, hp, hy]
      rw [hs, List.length_cons] at hlen
      obtain ⟨hrun, hacc, htak⟩ := ih { s with inputs := rest } hw (Nat.le_of_succ_le_succ hlen) hrest
      rw [runEdges_succ hstep, acceptedIn_succ hstep, takenIn_succ hstep, haccepted, htaken, hacc, htak]
      exact ⟨hrun, rfl, rfl⟩

/-! ### The host that always takes responses -/

/-- The pins of an edge that takes what waits and presents nothing. -/
def Pins.drain : Pins := { rst := false, cmdValid := false, cmd := 0#40, rspReady := true }

/-- From any state, words presented at consecutive edges are accepted one at each edge, and the draining edge after them
accepts nothing and frees the register. -/
theorem present_run (cs : List CmdWord) {s : State} (hs : s.inputs = cs.map Pins.present ++ [Pins.drain]) :
    acceptedIn cs.length s = cs ∧ acceptedIn (cs.length + 1) s = cs ∧
      ∃ t, runEdges (cs.length + 1) s = .next t ∧ t.rspValid = false := by
  induction cs generalizing s with
  | nil =>
    have hp := State.pins_cons s Pins.drain [] hs
    have hstep := step_of_holds hs rfl (by simp [Pins.drain])
    refine ⟨rfl, ?_, _, runEdges_succ hstep 0, Bool.and_false _⟩
    rw [List.length_nil, acceptedIn_succ hstep, State.acceptedCmd_of_holds (.inl (by rw [hp]; rfl))]
    rfl
  | cons c cs ih =>
    obtain ⟨s', hstep, hinputs⟩ := step_total s
    have haccepted : s.acceptedCmd = [c] := by
      have hp := State.pins_cons s (Pins.present c) _ hs
      rw [State.acceptedCmd_of_accepts (by rw [hp]; rfl) (by rw [hp]; rfl) (.inr (by rw [hp]; rfl)), hp]
      rfl
    obtain ⟨hacc, haccDrain, t, hrun, hfree⟩ := ih (hinputs.trans (by rw [hs]; rfl))
    rw [List.length_cons, acceptedIn_succ hstep, acceptedIn_succ hstep, hacc, haccDrain, haccepted, runEdges_succ hstep]
    exact ⟨rfl, rfl, t, hrun, hfree⟩

/-- Settles O35: the presented words are accepted at full rate, and R34's order of responses (O36) holds of the run, at
the end of which nothing waits. -/
theorem fullRateRun : Obligations.FullRateRun := by
  unfold Obligations.FullRateRun
  intro cs s hfree hs
  obtain ⟨hacc, haccDrain, t, hrun, hfreeEnd⟩ := present_run cs hs
  have hlen : s.inputs.length = cs.length + 1 := by simp [hs]
  have hnoReset : s.noReset (cs.length + 1) := by
    refine ⟨hlen.ge, fun p hp => ?_⟩
    rw [← hlen, List.take_length, hs] at hp
    obtain ⟨c, -, rfl⟩ | rfl : (∃ c ∈ cs, Pins.present c = p) ∨ p = Pins.drain := by
      simpa [Pins.drain] using hp
    · rfl
    · rfl
  obtain ⟨t', hrun', hrsps, herr⟩ := commandsRunInOrder (cs.length + 1) s hnoReset
  obtain ⟨t'', hrun'', hinputs⟩ := blockNeverStops (cs.length + 1) s
  obtain rfl : t' = t := Host.Outcome.next.inj (hrun'.symm.trans hrun)
  obtain rfl : t'' = t' := Host.Outcome.next.inj (hrun''.symm.trans hrun)
  rw [haccDrain, State.pendingRsp_of_free hfree, State.pendingRsp_of_free hfreeEnd, List.append_nil,
    List.nil_append] at hrsps
  rw [haccDrain] at herr
  exact ⟨hacc, hrsps, t'', hrun, herr, hfreeEnd, by rw [hinputs, ← hlen, List.drop_length]⟩

end Sys2Proof.Machine

/-! PROOFS. The two invariants of the response register: the shape of a response word (spec/30_encoding.md section 3)
and what a waiting response says of `dec_err` (spec/10_state.md sections 1 and 6). Both follow from the list of the
answers a command can have. -/

namespace Sys2Proof.Machine

/-! ### Good and bad groups (R61) -/

/-- One of the four codes is no symbol of the alphabet. -/
def BadGroup (c0 c1 c2 c3 : Byte) : Prop :=
  (¬∃ i, classify c0 = .sym i) ∨ (¬∃ i, classify c1 = .sym i) ∨ (¬∃ i, classify c2 = .sym i) ∨
    (¬∃ i, classify c3 = .sym i)

theorem syms_or_badGroup (c0 c1 c2 c3 : Byte) :
    (∃ i0 i1 i2 i3, classify c0 = .sym i0 ∧ classify c1 = .sym i1 ∧ classify c2 = .sym i2 ∧ classify c3 = .sym i3) ∨
      BadGroup c0 c1 c2 c3 := by
  by_cases h : BadGroup c0 c1 c2 c3
  · exact .inr h
  · simp only [BadGroup, not_or, not_not] at h
    obtain ⟨⟨i0, h0⟩, ⟨i1, h1⟩, ⟨i2, h2⟩, i3, h3⟩ := h
    exact .inl ⟨i0, i1, i2, i3, h0, h1, h2, h3⟩

/-! ### The answers (R45, R14) -/

/-- The answers a command can have while `dec_err` is `e`: the rows of R45, each with the `dec_err` it leaves. -/
inductive AnswerRow (e : Bool) : CmdResult → Prop
  /-- NOP. -/
  | silent : AnswerRow e (noResponse e)
  /-- ENC3, ENC2 and ENC1: two symbols, and two symbols or pads. -/
  | symbols (i0 i1 : Sextet) (c2 c3 : Byte) (h2 : isBase64Code c2 = true) (h3 : isBase64Code c3 = true) :
    AnswerRow e (respond (encoderRsp (alpha i0) (alpha i1) c2 c3) e)
  /-- DEC with its three bytes. -/
  | group (v : Group) : AnswerRow e (respond { st := .ok, last := false, cnt := 3, data := v.setWidth 32 } false)
  /-- DEC without bytes. -/
  | badGroup : AnswerRow e (respond (emptyRsp .ok false) true)
  /-- DECF with the bytes of a final group that ends in `p` pads. -/
  | finalGroup (v : Group) (p : Nat) (hp : p ≤ 2) :
    AnswerRow e (respond { st := .ok, last := true, cnt := 3 - p, data := v.setWidth 32 &&& keepMask (3 - p) } false)
  /-- DECF without bytes. -/
  | closing (st : Status) (hst : st ≠ .illegalCmd) : AnswerRow e (respond (emptyRsp st true) false)
  /-- An illegal word. -/
  | illegal : AnswerRow e (respond (emptyRsp .illegalCmd false) e)

theorem isBase64Code_alpha (i : Sextet) : isBase64Code (alpha i) = true := by
  simp [isBase64Code]

theorem isBase64Code_pad : isBase64Code padCode = true := by decide

theorem answerRow_decResult (c0 c1 c2 c3 : Byte) (e : Bool) : AnswerRow e (decResult c0 c1 c2 c3 e) := by
  rcases syms_or_badGroup c0 c1 c2 c3 with ⟨i0, i1, i2, i3, h0, h1, h2, h3⟩ | hbad
  · cases e with
    | false =>
      rw [decResult_of_syms rfl h0 h1 h2 h3]
      exact .group _
    | true =>
      rw [decResult_of_pending]
      exact .badGroup
  · rw [decResult_of_error (.inr hbad)]
    exact .badGroup

theorem answerRow_finalGroupResult (c0 c1 c2 c3 : Byte) (e : Bool) :
    AnswerRow e (finalGroupResult c0 c1 c2 c3 e) := by
  by_cases h : e = true ∨ padValid (classify c0) (classify c1) (classify c2) (classify c3) = none
  · rw [finalGroupResult_of_error h]
    exact .closing .invalidSymbol Status.noConfusion
  · obtain ⟨he, hvalid⟩ := not_or.mp h
    obtain ⟨p, hp⟩ := Option.ne_none_iff_exists'.mp hvalid
    rw [finalGroupResult_of_valid p (Bool.eq_false_of_not_eq_true he) rfl rfl rfl rfl hp]
    exact .finalGroup _ p (padValid_le_two hp)

/-- A count above 4 is answered as an illegal command (log entry 7). -/
theorem answerRow_decfResult (n : Nat) (c0 c1 c2 c3 : Byte) (e : Bool) : AnswerRow e (decfResult n c0 c1 c2 c3 e) := by
  match n with
  | 0 =>
    rw [decfResult_zero]
    exact .closing _ (by cases e <;> exact Status.noConfusion)
  | 1 | 2 | 3 => exact .closing .invalidLength Status.noConfusion
  | 4 => exact answerRow_finalGroupResult c0 c1 c2 c3 e
  | _ + 5 => exact .illegal

/-- Every command has one of the answers listed. -/
theorem answerRow_commandResult (i : Instr) (e : Bool) : AnswerRow e (commandResult i e) := by
  cases i with
  | nop => exact .silent
  | enc3 => exact .symbols _ _ _ _ (isBase64Code_alpha _) (isBase64Code_alpha _)
  | enc2 => exact .symbols _ _ _ _ (isBase64Code_alpha _) isBase64Code_pad
  | enc1 => exact .symbols _ _ _ _ isBase64Code_pad isBase64Code_pad
  | dec c0 c1 c2 c3 => exact answerRow_decResult c0 c1 c2 c3 e
  | decf n c0 c1 c2 c3 => exact answerRow_decfResult n c0 c1 c2 c3 e
  | illegal => exact .illegal

theorem answerRow_execWord (w : CmdWord) (e : Bool) : AnswerRow e (execWord w e) := by
  rw [execWord_eq_commandResult]
  exact answerRow_commandResult _ e

/-! ### The shape of a response word (R43, R45) -/

theorem lane3_setWidth (v : Group) : lane3 (v.setWidth 32) = 0#8 := by
  rw [← zext32_eq_setWidth, zext32, lane3, BitVec.extractLsb'_append_eq_of_le (by decide), BitVec.extractLsb'_eq_self]

theorem lane0_setWidth (v : Group) : lane0 (v.setWidth 32) = v.extractLsb' 0 8 :=
  BitVec.extractLsb'_setWidth_of_le (by decide)

/-- A group's bytes stand in the lanes 2 to 0 (R30). -/
theorem setWidth_eq_payloadOf (v : Group) :
    v.setWidth 32 = payloadOf 0#8 (v.extractLsb' 16 8) (v.extractLsb' 8 8) (v.extractLsb' 0 8) := by
  rw [← payloadOf_lanes (v.setWidth 32), lane3_setWidth, lane2_setWidth, lane1_setWidth, lane0_setWidth]

/-- `M(3)` (R62) keeps all three bytes. -/
theorem setWidth_and_keepMask_three (v : Group) : v.setWidth 32 &&& keepMask 3 = v.setWidth 32 := by
  have hmask : lane3 (keepMask 3) = 0#8 ∧ lane2 (keepMask 3) = BitVec.allOnes 8 ∧
    lane1 (keepMask 3) = BitVec.allOnes 8 ∧ lane0 (keepMask 3) = BitVec.allOnes 8 := by decide
  rw [setWidth_eq_payloadOf, payload_and]
  simp only [hmask, lane3_payloadOf, lane2_payloadOf, lane1_payloadOf, lane0_payloadOf, BitVec.and_zero,
    BitVec.and_allOnes]

/-- A closing response without data has a status of a decode message. -/
theorem rspShape_closing {st : Status} (h : st ≠ .illegalCmd) : rspShape (emptyRsp st true).word = true := by
  cases st with
  | ok | invalidLength | invalidSymbol => decide
  | illegalCmd => contradiction

/-- Row by row: the word has the fields of the response, whose unused lanes are 0. -/
theorem AnswerRow.all_rspShape {e : Bool} {a : CmdResult} (h : AnswerRow e a) : a.rsp.all rspShape = true := by
  cases h with
  | silent => rfl
  | symbols i0 i1 c2 c3 h2 h3 =>
    simp [rspShape, encoderRsp, symbolData_eq_payloadOf, rspCnt_word, Status.code, h2, h3]
  | group v => simp [rspShape, rspCnt_word, Status.code, lane3_setWidth]
  | badGroup => rfl
  | finalGroup v p hp =>
    obtain rfl | rfl | rfl : p = 0 ∨ p = 1 ∨ p = 2 := by omega
    · simp [rspShape, rspCnt_word, Status.code, setWidth_and_keepMask_three, lane3_setWidth]
    · simp [rspShape, rspCnt_word, Status.code, setWidth_and_keepMask_two]
    · simp [rspShape, rspCnt_word, Status.code, setWidth_and_keepMask_one]
  | closing st hst => exact rspShape_closing hst
  | illegal => rfl

/-- The register's value after reset is the word of an empty DEC response. -/
theorem rspShape_zero : rspShape 0#40 = true := by decide

/-- Settles O37: an edge leaves the register, clears it, or loads an answer, which has the shape of its row. -/
theorem responseShapeKept : Obligations.ResponseShapeKept := by
  unfold Obligations.ResponseShapeKept
  intro s t hs hstep
  rcases step_cases hstep with ⟨-, rfl⟩ | ⟨-, -, -, hexec⟩ | ⟨-, -, rfl⟩
  · exact rspShape_zero
  · rw [exec_decode] at hexec
    obtain rfl := Host.Outcome.next.inj hexec
    have hshape := (answerRow_execWord s.pins.cmd s.decErr).all_rspShape
    rw [State.RspOk, State.complete_rspQ, State.takeResponse_decErr, State.dropPins_decErr]
    cases hw : (execWord s.pins.cmd s.decErr).rsp with
    | none => exact hs
    | some w => simpa [hw] using hshape
  · exact hs

/-! ### What a response says of `dec_err` (R14, R25) -/

theorem rspTellsDecErr_of_last {r : Rsp} (h : r.last = true) : rspTellsDecErr r.word false = true := by
  simp [rspTellsDecErr, h]

theorem AnswerRow.all_rspTellsDecErr {e : Bool} {a : CmdResult} (h : AnswerRow e a) :
    a.rsp.all (rspTellsDecErr · a.decErr) = true := by
  cases h with
  | silent => rfl
  | symbols => simp [rspTellsDecErr, encoderRsp, rspCnt_word]
  | group => simp [rspTellsDecErr, rspCnt_word]
  | badGroup => rfl
  | finalGroup | closing => exact rspTellsDecErr_of_last rfl
  | illegal => simp [rspTellsDecErr, emptyRsp, rspCnt_word, Status.code]

/-- Settles O38: an edge empties the register, leaves it with `dec_err`, or loads an answer that tells its `dec_err`. -/
theorem waitingResponseTellsDecErr : Obligations.WaitingResponseTellsDecErr := by
  unfold Obligations.WaitingResponseTellsDecErr
  intro s t hs hstep hwait
  rcases step_cases hstep with ⟨-, rfl⟩ | ⟨-, -, hf, hexec⟩ | ⟨-, -, rfl⟩
  · exact absurd hwait Bool.false_ne_true
  · rw [exec_decode] at hexec
    obtain rfl := Host.Outcome.next.inj hexec
    have hfree : (s.dropPins.takeResponse s.pins.rspReady).rspValid = false := s.dropPins.takeResponse_free hf
    rw [State.complete_rspValid, hfree, Bool.false_or] at hwait
    obtain ⟨w, hw⟩ := Option.isSome_iff_exists.mp hwait
    have htells := (answerRow_execWord s.pins.cmd s.decErr).all_rspTellsDecErr
    rw [State.takeResponse_decErr, State.dropPins_decErr] at hw
    simpa [hw] using htells
  · rw [State.takeResponse_rspValid, Bool.and_eq_true] at hwait
    exact hs hwait.1

/-- Settles O39: the register holds 0 after reset, and nothing waits. -/
theorem invariantsHoldAtReset : Obligations.InvariantsHoldAtReset := by
  unfold Obligations.InvariantsHoldAtReset
  exact ⟨rspShape_zero, fun hwait => absurd hwait Bool.false_ne_true⟩

end Sys2Proof.Machine

/-! PROOFS. The text of spec/43_message.md section 4: its length and pads, the decode framing (section 2), `Decode`
group by group with its errors, and the round trip `Decode(Encode(b)) = Ok(b)`. -/

namespace Sys2Proof.Machine

/-! ### The length and the pads of an encoded text (R75, R76) -/

theorem encodeMsg_length (b : List Byte) : (encodeMsg b).length = 4 * ((b.length + 2) / 3) := by
  induction b using encodeMsg.induct with
  | case1 b0 b1 b2 rest ih =>
    simp only [encodeMsg, List.length_cons, ih]
    omega
  | case2 | case3 | case4 => simp [encodeMsg]

theorem encFrame_length (b : List Byte) : (encFrame b).length = (b.length + 2) / 3 := by
  induction b using encFrame.induct with
  | case1 b0 b1 b2 rest ih =>
    simp only [encFrame, List.length_cons, ih]
    omega
  | case2 | case3 | case4 => simp [encFrame]

theorem encodeMsg_eq_nil_iff (b : List Byte) : encodeMsg b = [] ↔ b = [] := by
  rw [← List.length_eq_zero_iff, ← List.length_eq_zero_iff, encodeMsg_length]
  omega

/-- Settles O48, from the two lengths. -/
theorem encodedLength : Obligations.EncodedLength := by
  unfold Obligations.EncodedLength
  exact fun b => ⟨encodeMsg_length b, encodeMsg_eq_nil_iff b, encFrame_length b⟩

/-- Settles O49, by the recursion of `encodeMsg`: the symbols of a complete group, which are no pads, stand before the
text of the bytes after it. -/
theorem encodedPads : Obligations.EncodedPads := by
  unfold Obligations.EncodedPads
  have hsym (i : Sextet) : alpha i ≠ 0x3D#8 := alpha_ne_padCode i
  intro b
  induction b using encodeMsg.induct with
  | case1 b0 b1 b2 rest ih =>
    obtain ⟨body, hbody, h0, h1, h2⟩ := ih
    have hlen : (b0 :: b1 :: b2 :: rest).length % 3 = rest.length % 3 := Nat.add_mod_right rest.length 3
    refine ⟨alpha (split (enc3Value b0 b1 b2)).x0 :: alpha (split (enc3Value b0 b1 b2)).x1 ::
      alpha (split (enc3Value b0 b1 b2)).x2 :: alpha (split (enc3Value b0 b1 b2)).x3 :: body, ?_, ?_⟩
    · simpa [hsym] using hbody
    · rw [hlen, encodeMsg]
      exact ⟨fun h => by rw [h0 h], fun h => by rw [h1 h]; rfl, fun h => by rw [h2 h]; rfl⟩
  | case2 b0 b1 =>
    exact ⟨[alpha (split (enc2Value b0 b1)).x0, alpha (split (enc2Value b0 b1)).x1,
      alpha (split (enc2Value b0 b1)).x2], by simp [hsym], by simp [encodeMsg, padCode]⟩
  | case3 b0 =>
    exact ⟨[alpha (split (enc1Value b0)).x0, alpha (split (enc1Value b0)).x1], by simp [hsym],
      by simp [encodeMsg, padCode]⟩
  | case4 => exact ⟨[], by simp [encodeMsg]⟩

/-! ### The framing of a decode message (R71) -/

/-- A message of at most four codes is one DECF. -/
theorem decFrame_of_length_le {t : List Byte} (h : t.length ≤ 4) : decFrame t = [asmDecf t] := by
  match t, h with
  | [], _ | [_], _ | [_, _], _ | [_, _, _], _ | [_, _, _, _], _ => rfl

/-- A group that more codes follow is a DEC. -/
theorem decFrame_group {t : List Byte} (h : 0 < t.length) (c0 c1 c2 c3 : Byte) :
    decFrame (c0 :: c1 :: c2 :: c3 :: t) = asmDec c0 c1 c2 c3 :: decFrame t := by
  match t, h with
  | c4 :: rest, _ => rw [decFrame]

/-- An induction over a message in the way its framing cuts it. -/
theorem message_induction {motive : List Byte → Prop} (final : ∀ t, t.length ≤ 4 → motive t)
    (group : ∀ c0 c1 c2 c3 t, 0 < t.length → motive t → motive (c0 :: c1 :: c2 :: c3 :: t)) (t : List Byte) :
    motive t := by
  induction t using decFrame.induct with
  | case1 c0 c1 c2 c3 c4 rest ih => exact group c0 c1 c2 c3 (c4 :: rest) (Nat.succ_pos _) ih
  | case2 t ht =>
    refine final t (Nat.le_of_not_lt fun hlen => ?_)
    match t, hlen with
    | c0 :: c1 :: c2 :: c3 :: c4 :: rest, _ => exact ht c0 c1 c2 c3 c4 rest rfl

/-- A position past the first group is a position in the codes after that group. -/
theorem getD_after_codes {i : Nat} (hi : 4 ≤ i) (c0 c1 c2 c3 d : Byte) (t : List Byte) :
    (c0 :: c1 :: c2 :: c3 :: t).getD i d = t.getD (i - 4) d := by
  obtain ⟨j, rfl⟩ := Nat.exists_eq_add_of_le' hi
  rfl

/-- The DECs of the first `n` groups of a message, as R71's loop counts them. -/
def decLoop (t : List Byte) (n : Nat) : List Instr :=
  (List.range n).map fun g =>
    asmDec (t.getD (4 * g) 0#8) (t.getD (4 * g + 1) 0#8) (t.getD (4 * g + 2) 0#8) (t.getD (4 * g + 3) 0#8)

/-- The first group's DEC stands before the loop over the codes after it. -/
theorem decLoop_succ (c0 c1 c2 c3 : Byte) (t : List Byte) (n : Nat) :
    decLoop (c0 :: c1 :: c2 :: c3 :: t) (n + 1) = asmDec c0 c1 c2 c3 :: decLoop t n := by
  rw [decLoop, List.range_succ_eq_map, List.map_cons, List.map_map]
  rfl

/-- Settles O43, by the recursion of `decFrame`: after the first group, the loop and the DECF are those of the codes
after it. -/
theorem decodeFraming : Obligations.DecodeFraming := by
  unfold Obligations.DecodeFraming
  intro t
  change (_ → _) ∧ (_ → _ → _ = decLoop t _ ++ _) ∧ (_ → _ = decLoop t _ ++ _)
  induction t using message_induction with
  | final t ht =>
    match t, ht with
    | [], _ | [_], _ | [_, _], _ | [_, _, _], _ | [_, _, _, _], _ => simp [decFrame, asmDecf, decLoop]
  | group c0 c1 c2 c3 t ht ih =>
    obtain ⟨-, hwhole, hrest⟩ := ih
    have hlen : (c0 :: c1 :: c2 :: c3 :: t).length = t.length + 4 := rfl
    have hdiv : (t.length + 4) / 4 = t.length / 4 + 1 := Nat.add_div_right _ (by decide)
    rw [hlen, hdiv, Nat.add_mod_right, decFrame_group ht]
    refine ⟨fun h => by omega, fun _ hmod => ?_, fun hmod => ?_⟩
    · obtain ⟨n, hn⟩ : ∃ n, t.length / 4 = n + 1 := Nat.exists_eq_succ_of_ne_zero (by omega)
      rw [hwhole ht hmod, hn, Nat.add_sub_cancel, Nat.add_sub_cancel, decLoop_succ, List.cons_append]
      have hlast (j : Nat) (hj : j < 5) :
          (c0 :: c1 :: c2 :: c3 :: t).getD (t.length + 4 - j) 0#8 = t.getD (t.length - j) 0#8 := by
        rw [getD_after_codes (by omega), Nat.sub_right_comm, Nat.add_sub_cancel]
      rw [hlast 4 (by decide), hlast 3 (by decide), hlast 2 (by decide), hlast 1 (by decide)]
    · rw [hrest hmod, decLoop_succ, List.cons_append, Nat.mul_add_one]
      rfl

end Sys2Proof.Machine

/-! PROOFS. `Decode` group by group (spec/43_message.md section 4): its error properties, and that it undoes `Encode`.
-/

namespace Sys2Proof.Machine

/-! ### The error of a message that holds a bad group (R79) -/

/-- The one error of a message that has a misplaced or bad code: the length is judged first (R79). -/
def symbolErrorOf (t : List Byte) : MsgError := if t.length % 4 = 0 then .invalidSymbol else .invalidLength

theorem length_group_mod (c0 c1 c2 c3 : Byte) (t : List Byte) :
    (c0 :: c1 :: c2 :: c3 :: t).length % 4 = t.length % 4 := Nat.add_mod_right t.length 4

theorem symbolErrorOf_group (c0 c1 c2 c3 : Byte) (t : List Byte) :
    symbolErrorOf (c0 :: c1 :: c2 :: c3 :: t) = symbolErrorOf t := by
  rw [symbolErrorOf, length_group_mod, symbolErrorOf]

/-! ### `Decode` of a final group -/

section FinalGroup
variable {c0 c1 c2 c3 : Byte}

theorem decodeMsg_final_of_valid {k0 k1 k2 k3 : CodeClass} {p : Nat} (h0 : classify c0 = k0) (h1 : classify c1 = k1)
    (h2 : classify c2 = k2) (h3 : classify c3 = k3) (hp : padValid k0 k1 k2 k3 = some p) :
    decodeMsg [c0, c1, c2, c3] = .ok ((groupBytes (unpack k0.index k1.index k2.index k3.index)).take (3 - p)) := by
  subst h0 h1 h2 h3
  exact decodeMsg_of_valid (t := [c0, c1, c2, c3]) (by simp) (Nat.succ_pos _) rfl hp

theorem decodeMsg_final_of_invalid (h : padValid (classify c0) (classify c1) (classify c2) (classify c3) = none) :
    decodeMsg [c0, c1, c2, c3] = .error .invalidSymbol :=
  decodeMsg_of_invalid_final (t := [c0, c1, c2, c3]) (by simp) (Nat.succ_pos _) h

end FinalGroup

/-! ### `Decode` of a group that more codes follow -/

section Group
variable {c0 c1 c2 c3 : Byte} {t : List Byte}

/-- The classes before the final group and those of the final group, with a group put before a message. -/
theorem classes_group (h : 4 ≤ t.length) :
    ((c0 :: c1 :: c2 :: c3 :: t).map classify).take ((c0 :: c1 :: c2 :: c3 :: t).length - 4) =
        classify c0 :: classify c1 :: classify c2 :: classify c3 :: (t.map classify).take (t.length - 4) ∧
      ((c0 :: c1 :: c2 :: c3 :: t).map classify).drop ((c0 :: c1 :: c2 :: c3 :: t).length - 4) =
        (t.map classify).drop (t.length - 4) := by
  have hlen : (c0 :: c1 :: c2 :: c3 :: t).length - 4 = t.length - 4 + 4 := by
    simp only [List.length_cons]
    omega
  rw [hlen]
  exact ⟨rfl, rfl⟩

theorem decodeMsg_group_of_bad (ht : 0 < t.length) (h : BadGroup c0 c1 c2 c3) :
    decodeMsg (c0 :: c1 :: c2 :: c3 :: t) = .error (symbolErrorOf t) := by
  have hmod := length_group_mod c0 c1 c2 c3 t
  by_cases hlen : t.length % 4 = 0
  · rw [symbolErrorOf, if_pos hlen]
    apply decodeMsg_of_not_sym (hmod.trans hlen) (Nat.succ_pos _)
    rw [(classes_group (by omega)).1]
    simp only [BadGroup, ← CodeClass.isSym_eq_false_iff] at h
    rcases h with h | h | h | h
    all_goals simp [h]
  · rw [symbolErrorOf, if_neg hlen, decodeMsg_of_length_error (by rwa [hmod])]

/-- The pads of a message drop bytes of its final group alone, not of a group before it. -/
theorem take_append_classBytes {p : Nat} (h : 4 ≤ t.length)
    (hpad : padValidLast ((t.map classify).drop (t.length - 4)) = some p) (g : List Byte) :
    (g ++ classBytes (t.map classify)).take ((g ++ classBytes (t.map classify)).length - p) =
      g ++ (classBytes (t.map classify)).take ((classBytes (t.map classify)).length - p) := by
  have hp : p ≤ 2 := by
    rw [padValidLast_drop h] at hpad
    exact padValid_le_two hpad
  have hle : p ≤ (classBytes (t.map classify)).length := by
    rw [classBytes_length, List.length_map]
    omega
  rw [List.length_append, Nat.add_sub_assoc hle, List.take_length_add_append]

/-- A good group's bytes stand before those of the rest of the message, whose errors are the message's. -/
theorem decodeMsg_group_of_syms {i0 i1 i2 i3 : Sextet} (ht : 0 < t.length) (h0 : classify c0 = .sym i0)
    (h1 : classify c1 = .sym i1) (h2 : classify c2 = .sym i2) (h3 : classify c3 = .sym i3) :
    decodeMsg (c0 :: c1 :: c2 :: c3 :: t) = (decodeMsg t).map (groupBytes (unpack i0 i1 i2 i3) ++ ·) := by
  have hmod := length_group_mod c0 c1 c2 c3 t
  by_cases hlen : t.length % 4 = 0
  · have h4 : 4 ≤ t.length := by omega
    have hlen' := hmod.trans hlen
    have hpos' : 0 < (c0 :: c1 :: c2 :: c3 :: t).length := Nat.succ_pos _
    obtain ⟨htake, hdrop⟩ := classes_group (c0 := c0) (c1 := c1) (c2 := c2) (c3 := c3) (t := t) h4
    have hall : (((c0 :: c1 :: c2 :: c3 :: t).map classify).take ((c0 :: c1 :: c2 :: c3 :: t).length - 4)).all
        CodeClass.isSym = ((t.map classify).take (t.length - 4)).all CodeClass.isSym := by
      rw [htake]
      simp [h0, h1, h2, h3]
    cases hsym : ((t.map classify).take (t.length - 4)).all CodeClass.isSym with
    | false =>
      rw [decodeMsg_of_not_sym hlen ht hsym, decodeMsg_of_not_sym hlen' hpos' (hall.trans hsym)]
      rfl
    | true =>
      cases hpad : padValidLast ((t.map classify).drop (t.length - 4)) with
      | none =>
        rw [decodeMsg_of_invalid_final hlen ht hpad, decodeMsg_of_invalid_final hlen' hpos' (by rw [hdrop, hpad])]
        rfl
      | some p =>
        rw [decodeMsg_of_valid hlen ht hsym hpad,
          decodeMsg_of_valid hlen' hpos' (hall.trans hsym) (by rw [hdrop, hpad]), List.map_cons, List.map_cons,
          List.map_cons, List.map_cons, classBytes, h0, h1, h2, h3, take_append_classBytes h4 hpad]
        rfl
  · rw [decodeMsg_of_length_error hlen, decodeMsg_of_length_error (by rwa [hmod])]
    rfl

end Group

/-! ### The error properties (R77) -/

/-- A `BAD` class among the last four is never a valid final group. -/
theorem padValidLast_of_bad_mem {k : List CodeClass} (h : .bad ∈ k) : padValidLast k = none := by
  match k with
  | [k0, k1, k2, k3] => exact (padValid_eq_none_iff k0 k1 k2 k3).mpr (.inl (by simpa [eq_comm] using h))
  | [] | [_] | [_, _] | [_, _, _] | _ :: _ :: _ :: _ :: _ :: _ => rfl

/-- Settles O50: a `BAD` code stands before the final group, which the check of the groups sees, or in it, which the
padding validator sees. -/
theorem decodeErrors : Obligations.DecodeErrors := by
  unfold Obligations.DecodeErrors
  refine fun t => ⟨decodeMsg_of_length_error, fun hlen ⟨c, hc, hbad⟩ => ?_⟩
  have hpos : 0 < t.length := List.length_pos_of_mem hc
  have hmem : CodeClass.bad ∈ (t.map classify).take (t.length - 4) ++ (t.map classify).drop (t.length - 4) := by
    rw [List.take_append_drop, ← hbad]
    exact List.mem_map_of_mem hc
  rcases List.mem_append.mp hmem with hbefore | hfinal
  · exact decodeMsg_of_not_sym hlen hpos (List.all_eq_false.mpr ⟨.bad, hbefore, Bool.false_ne_true⟩)
  · exact decodeMsg_of_invalid_final hlen hpos (padValidLast_of_bad_mem hfinal)

/-! ### The round trip (R74) -/

theorem classify_padCode : classify padCode = .pad := classify_pad

theorem split_enc2Value_x3 (b0 b1 : Byte) : (split (enc2Value b0 b1)).x3 = 0#6 := by
  rw [split_eq_specFields, enc2Value_eq_enc3Value, ← specPack_eq_enc3Value]
  exact specField_zero_of_pack_two b0 b1

theorem split_enc1Value_x2_x3 (b0 : Byte) : (split (enc1Value b0)).x2 = 0#6 ∧ (split (enc1Value b0)).x3 = 0#6 := by
  rw [split_eq_specFields, enc1Value_eq_enc3Value, ← specPack_eq_enc3Value]
  exact ⟨specField_six_of_pack_one b0, specField_zero_of_pack_two b0 0#8⟩

/-- Two symbols and a pad unpack to the padded group. -/
theorem unpack_enc2 (b0 b1 : Byte) : unpack (split (enc2Value b0 b1)).x0 (split (enc2Value b0 b1)).x1
    (split (enc2Value b0 b1)).x2 0#6 = enc3Value b0 b1 0#8 := by
  rw [← split_enc2Value_x3 b0 b1, unpack_split, enc2Value_eq_enc3Value]

/-- Two symbols and two pads unpack to the padded group. -/
theorem unpack_enc1 (b0 : Byte) : unpack (split (enc1Value b0)).x0 (split (enc1Value b0)).x1 0#6 0#6 =
    enc3Value b0 0#8 0#8 := by
  obtain ⟨h2, h3⟩ := split_enc1Value_x2_x3 b0
  have h := unpack_split (enc1Value b0)
  rw [← enc1Value_eq_enc3Value]
  rwa [h2, h3] at h

/-- Settles O46, by the recursion of `encodeMsg`: a group's symbols unpack to the group that was split, and the pads
of a partial one drop the bytes it was filled up with. -/
theorem decodeOfEncodeIsIdentity : Obligations.DecodeOfEncodeIsIdentity := by
  unfold Obligations.DecodeOfEncodeIsIdentity
  intro b
  induction b using encodeMsg.induct with
  | case1 b0 b1 b2 rest ih =>
    rw [encodeMsg]
    rcases eq_or_ne rest [] with rfl | hne
    · rw [encodeMsg, decodeMsg_final_of_valid (classify_alpha _) (classify_alpha _) (classify_alpha _)
        (classify_alpha _) rfl]
      simp only [CodeClass.index_sym, unpack_split, groupBytes_enc3Value]
      rfl
    · have hpos : 0 < (encodeMsg rest).length := List.length_pos_of_ne_nil (mt (encodeMsg_eq_nil_iff rest).mp hne)
      rw [decodeMsg_group_of_syms hpos (classify_alpha _) (classify_alpha _) (classify_alpha _) (classify_alpha _), ih,
        unpack_split, groupBytes_enc3Value]
      rfl
  | case2 b0 b1 =>
    rw [encodeMsg, decodeMsg_final_of_valid (classify_alpha _) (classify_alpha _) (classify_alpha _)
      classify_padCode rfl]
    simp only [CodeClass.index_sym, CodeClass.index_pad, unpack_enc2, groupBytes_enc3Value]
    rfl
  | case3 b0 =>
    rw [encodeMsg, decodeMsg_final_of_valid (classify_alpha _) (classify_alpha _) classify_padCode classify_padCode rfl]
    simp only [CodeClass.index_sym, CodeClass.index_pad, unpack_enc1, groupBytes_enc3Value]
    rfl
  | case4 => exact decodeMsg_nil

end Sys2Proof.Machine

/-! PROOFS. What the block computes of a whole message (spec/43_message.md section 3), on the stream of its commands,
and from there on the clocked block by R34's order of responses; the round trip through the block (section 4); and
what an error or an open message does to the host's conclusion (spec/60_exceptions.md, spec/70_reset_and_hazards.md
section 3). -/

namespace Sys2Proof.Machine

/-- A stream that begins with a well-formed command: its answer, and then the rest on the `dec_err` it leaves. -/
theorem responses_encode_cons {i : Instr} (hwf : i.wellFormed = true) (cs : List CmdWord) (e : Bool) :
    responses (encode i :: cs) e = (commandResult i e).rsp.toList ++ responses cs (commandResult i e).decErr := by
  rw [responses_cons, execWord_encode hwf]

theorem decErrAfter_encode_cons {i : Instr} (hwf : i.wellFormed = true) (cs : List CmdWord) (e : Bool) :
    decErrAfter (encode i :: cs) e = decErrAfter cs (commandResult i e).decErr := by
  rw [decErrAfter_cons, execWord_encode hwf]

/-! ### An encode message on the stream (R72) -/

/-- A command that is answered by four codes, whatever `dec_err`, and keeps `dec_err`. -/
def AnswersFourCodes (i : Instr) : Prop :=
  i.wellFormed = true ∧ ∃ c0 c1 c2 c3, ∀ e, commandResult i e = respond (encoderRsp c0 c1 c2 c3) e

theorem answersFourCodes_of_mem_encFrame (b : List Byte) : ∀ i ∈ encFrame b, AnswersFourCodes i := by
  induction b using encFrame.induct with
  | case1 b0 b1 b2 rest ih => exact List.forall_mem_cons.mpr ⟨⟨rfl, _, _, _, _, fun e => rfl⟩, ih⟩
  | case2 | case3 => exact List.forall_mem_singleton.mpr ⟨rfl, _, _, _, _, fun e => rfl⟩
  | case4 => exact List.forall_mem_nil _

/-- A stream of such commands keeps `dec_err`, and each command answers as it would alone. -/
theorem responses_of_answersFourCodes {is : List Instr} (h : ∀ i ∈ is, AnswersFourCodes i) (e : Bool) :
    decErrAfter (is.map encode) e = e ∧
      responses (is.map encode) e = is.flatMap fun i => (commandResult i e).rsp.toList := by
  induction is with
  | nil => exact ⟨rfl, rfl⟩
  | cons i is ih =>
    obtain ⟨⟨hwf, c0, c1, c2, c3, hi⟩, his⟩ := List.forall_mem_cons.mp h
    obtain ⟨herr, hrsps⟩ := ih his
    have hkept : (commandResult i e).decErr = e := by rw [hi, respond_decErr]
    rw [List.map_cons, decErrAfter_encode_cons hwf, responses_encode_cons hwf, hkept, herr, hrsps, List.flatMap_cons]
    exact ⟨rfl, rfl⟩

theorem decErrAfter_encFrame (b : List Byte) (e : Bool) : decErrAfter ((encFrame b).map encode) e = e :=
  (responses_of_answersFourCodes (answersFourCodes_of_mem_encFrame b) e).1

theorem responses_encFrame (b : List Byte) (e : Bool) :
    responses ((encFrame b).map encode) e = (encFrame b).flatMap fun i => (commandResult i e).rsp.toList :=
  (responses_of_answersFourCodes (answersFourCodes_of_mem_encFrame b) e).2

/-- The host reads `Encode(b)` from the answers to `EncFrame(b)`. -/
theorem hostText_encFrame (b : List Byte) (e : Bool) :
    hostText (responses ((encFrame b).map encode) e) = encodeMsg b := by
  rw [responses_encFrame, encodeMsg_eq_flatMap_answerText e, hostText, List.flatMap_assoc]
  rfl

theorem encFrame_answers_ok {b : List Byte} {e : Bool} {w : RspWord}
    (hw : w ∈ responses ((encFrame b).map encode) e) : rspSt w = 0#2 ∧ rspCnt w = 4 := by
  rw [responses_encFrame, List.mem_flatMap] at hw
  obtain ⟨i, hi, hw⟩ := hw
  obtain ⟨-, c0, c1, c2, c3, hresult⟩ := answersFourCodes_of_mem_encFrame b i hi
  rw [hresult, respond_rsp, Option.toList_some, List.mem_singleton] at hw
  subst hw
  exact ⟨rspSt_word _, rspCnt_word (encoderRsp c0 c1 c2 c3) (show 4 < 8 by decide)⟩

theorem responses_encFrame_length (b : List Byte) (e : Bool) :
    (responses ((encFrame b).map encode) e).length = (encFrame b).length := by
  have hone : ∀ i ∈ encFrame b, (commandResult i e).rsp.toList.length = 1 := by
    intro i hi
    obtain ⟨-, c0, c1, c2, c3, hresult⟩ := answersFourCodes_of_mem_encFrame b i hi
    rw [hresult]
    rfl
  rw [responses_encFrame, List.length_flatMap, List.map_congr_left hone, List.map_const', List.sum_replicate,
    smul_eq_mul, Nat.mul_one]

/-- Settles O44: by R34 (O36) the responses of the run are those of the stream `EncFrame(b)`. -/
theorem blockComputesEncode : Obligations.BlockComputesEncode := by
  unfold Obligations.BlockComputesEncode
  intro k s b hnoReset hfree hacc
  obtain ⟨t, hrun, hrsps, herr⟩ := commandsRunInOrder k s hnoReset
  rw [hacc, State.pendingRsp_of_free hfree, List.nil_append] at hrsps
  rw [hacc, decErrAfter_encFrame] at herr
  refine ⟨t, hrun, herr, ?_⟩
  rw [hrsps]
  exact ⟨hostText_encFrame b _, fun w hw => encFrame_answers_ok hw, responses_encFrame_length b _⟩

/-! ### What the host concludes from the responses to a decode message (R73) -/

/-- A response before others: its bytes stand before theirs, and what they conclude of errors stands. -/
theorem hostDecode_cons {rs : List RspWord} {x : Except MsgError (List Byte)} (h : hostDecode rs = some x)
    (w : RspWord) : hostDecode (w :: rs) = some (x.map (hostBytes [w] ++ ·)) := by
  have hbytes : hostBytes (w :: rs) = hostBytes [w] ++ hostBytes rs := by simp [hostBytes]
  cases rs with
  | nil => contradiction
  | cons r rs =>
    rw [hostDecode, List.getLast?_cons_cons, hbytes]
    rw [hostDecode] at h
    cases hf : (r :: rs).getLast? with
    | none => simp [hf] at h
    | some f =>
      simp only [hf] at h ⊢
      split_ifs at h ⊢ with hlast
      generalize (rspSt f).toNat = n at h ⊢
      match n, h with
      | 0, h | 1, h | 2, h =>
        obtain rfl := Option.some.inj h
        rfl

/-- A closing response with data alone: its bytes. -/
theorem hostDecode_closing_ok {r : Rsp} (hlast : r.last = true) (hok : r.st = .ok) :
    hostDecode [r.word] = some (.ok (hostBytes [r.word])) := by
  simp [hostDecode, hlast, hok, Status.code]

/-- The bytes of a final group that its pads leave (R62). -/
theorem hostBytes_finalGroup (v : Group) {p : Nat} (hp : p ≤ 2) :
    hostBytes [Rsp.word { st := .ok, last := true, cnt := 3 - p, data := v.setWidth 32 &&& keepMask (3 - p) }] =
      (groupBytes v).take (3 - p) := by
  rw [hostBytes_word _ (show 3 - p < 8 by omega)]
  obtain rfl | rfl | rfl : p = 0 ∨ p = 1 ∨ p = 2 := by omega
  · simp [setWidth_and_keepMask_three, lane2_setWidth, lane1_setWidth, lane0_setWidth, groupBytes]
  · simp [setWidth_and_keepMask_two, groupBytes]
  · simp [setWidth_and_keepMask_one, groupBytes]

/-- The bytes of a DEC with a good group (R61). -/
theorem hostBytes_group (v : Group) :
    hostBytes [Rsp.word { st := .ok, last := false, cnt := 3, data := v.setWidth 32 }] = groupBytes v := by
  rw [hostBytes_word _ (show 3 < 8 by decide)]
  simp [lane2_setWidth, lane1_setWidth, lane0_setWidth, groupBytes]

/-! ### The closing DECF of a message, with no error pending and with one -/

theorem asmDecf_wellFormed {t : List Byte} (h : t.length ≤ 4) : (asmDecf t).wellFormed = true := decide_eq_true h

theorem hostDecode_asmDecf {t : List Byte} (h : t.length ≤ 4) :
    hostDecode (responses [encode (asmDecf t)] false) = some (decodeMsg t) := by
  rw [responses_encode_cons (asmDecf_wellFormed h), responses_nil, List.append_nil]
  match t, h with
  | [], _ | [_], _ | [_, _], _ | [_, _, _], _ => rfl
  | [c0, c1, c2, c3], _ =>
    have hresult : commandResult (asmDecf [c0, c1, c2, c3]) false = finalGroupResult c0 c1 c2 c3 false := rfl
    cases hp : padValid (classify c0) (classify c1) (classify c2) (classify c3) with
    | none =>
      rw [hresult, finalGroupResult_of_error (.inr hp), decodeMsg_final_of_invalid hp]
      rfl
    | some p =>
      rw [hresult, finalGroupResult_of_valid p rfl rfl rfl rfl rfl hp, decodeMsg_final_of_valid rfl rfl rfl rfl hp,
        respond_rsp, Option.toList_some, hostDecode_closing_ok rfl rfl, hostBytes_finalGroup _ (padValid_le_two hp),
        specUnpack_eq_unpack]

theorem hostDecode_asmDecf_of_pending {t : List Byte} (h : t.length ≤ 4) :
    hostDecode (responses [encode (asmDecf t)] true) = some (.error (symbolErrorOf t)) := by
  rw [responses_encode_cons (asmDecf_wellFormed h), responses_nil, List.append_nil]
  match t, h with
  | [], _ | [_], _ | [_, _], _ | [_, _, _], _ => rfl
  | [c0, c1, c2, c3], _ =>
    have hresult : commandResult (asmDecf [c0, c1, c2, c3]) true = finalGroupResult c0 c1 c2 c3 true := rfl
    have herror : symbolErrorOf [c0, c1, c2, c3] = .invalidSymbol := symbolErrorOf_group c0 c1 c2 c3 []
    rw [hresult, finalGroupResult_of_pending, herror]
    rfl

/-! ### A DEC before the commands that close its message -/

section LeadingDec
variable {c0 c1 c2 c3 : Byte} {cs : List CmdWord} {e : Bool}

theorem hostDecode_asmDec_of_syms {i0 i1 i2 i3 : Sextet} {x : Except MsgError (List Byte)} (he : e = false)
    (h0 : classify c0 = .sym i0) (h1 : classify c1 = .sym i1) (h2 : classify c2 = .sym i2)
    (h3 : classify c3 = .sym i3) (hcs : hostDecode (responses cs false) = some x) :
    hostDecode (responses (encode (asmDec c0 c1 c2 c3) :: cs) e) =
      some (x.map (groupBytes (unpack i0 i1 i2 i3) ++ ·)) := by
  have hresult : commandResult (asmDec c0 c1 c2 c3) e = _ := decResult_of_syms he h0 h1 h2 h3
  rw [responses_encode_cons rfl, hresult, respond_decErr, respond_rsp, Option.toList_some, List.singleton_append,
    hostDecode_cons hcs, hostBytes_group, specUnpack_eq_unpack]

theorem hostDecode_asmDec_of_error {m : MsgError} (h : e = true ∨ BadGroup c0 c1 c2 c3)
    (hcs : hostDecode (responses cs true) = some (.error m)) :
    hostDecode (responses (encode (asmDec c0 c1 c2 c3) :: cs) e) = some (.error m) := by
  have hresult : commandResult (asmDec c0 c1 c2 c3) e = _ := decResult_of_error h
  rw [responses_encode_cons rfl, hresult, respond_decErr, respond_rsp, Option.toList_some, List.singleton_append,
    hostDecode_cons hcs]
  rfl

end LeadingDec

/-! ### A decode message on the stream (R73) -/

/-- A framed message closes itself: its DECF clears `dec_err` (R15). -/
theorem decErrAfter_decFrame (t : List Byte) (e : Bool) : decErrAfter ((decFrame t).map encode) e = false := by
  induction t using message_induction generalizing e with
  | final t ht =>
    rw [decFrame_of_length_le ht, List.map_singleton, decErrAfter_encode_cons (asmDecf_wellFormed ht)]
    exact decfResult_decErr ht _ _ _ _ e
  | group c0 c1 c2 c3 t ht ih => rw [decFrame_group ht, List.map_cons, decErrAfter_cons, ih]

/-- With an error pending the host concludes an error, whatever the codes. -/
theorem hostDecode_decFrame_of_pending (t : List Byte) :
    hostDecode (responses ((decFrame t).map encode) true) = some (.error (symbolErrorOf t)) := by
  induction t using message_induction with
  | final t ht =>
    rw [decFrame_of_length_le ht]
    exact hostDecode_asmDecf_of_pending ht
  | group c0 c1 c2 c3 t ht ih =>
    rw [decFrame_group ht, List.map_cons, symbolErrorOf_group]
    exact hostDecode_asmDec_of_error (.inl rfl) ih

/-- With no error pending the host concludes `Decode(t)`: a bad group leaves an error pending for the rest. -/
theorem hostDecode_decFrame (t : List Byte) :
    hostDecode (responses ((decFrame t).map encode) false) = some (decodeMsg t) := by
  induction t using message_induction with
  | final t ht =>
    rw [decFrame_of_length_le ht]
    exact hostDecode_asmDecf ht
  | group c0 c1 c2 c3 t ht ih =>
    rw [decFrame_group ht, List.map_cons]
    rcases syms_or_badGroup c0 c1 c2 c3 with ⟨i0, i1, i2, i3, h0, h1, h2, h3⟩ | hbad
    · rw [hostDecode_asmDec_of_syms rfl h0 h1 h2 h3 ih, decodeMsg_group_of_syms ht h0 h1 h2 h3]
    · rw [hostDecode_asmDec_of_error (.inr hbad) (hostDecode_decFrame_of_pending t), decodeMsg_group_of_bad ht hbad]

/-- Settles O45: by R34 (O36) the responses of the run are those of the stream `DecFrame(t)`. -/
theorem blockComputesDecode : Obligations.BlockComputesDecode := by
  unfold Obligations.BlockComputesDecode
  intro k s t hnoReset hfree he hacc
  obtain ⟨s', hrun, hrsps, herr⟩ := commandsRunInOrder k s hnoReset
  rw [hacc, State.pendingRsp_of_free hfree, List.nil_append, he] at hrsps
  rw [hacc, decErrAfter_decFrame] at herr
  exact ⟨s', hrun, herr, by rw [hrsps, hostDecode_decFrame]⟩

/-- Settles O47: the host reads `Encode(b)`, concludes `Decode` of it, and that is `b` (O46). -/
theorem blockRoundTrip : Obligations.BlockRoundTrip := by
  unfold Obligations.BlockRoundTrip
  intro b e
  rw [hostText_encFrame, hostDecode_decFrame, decodeOfEncodeIsIdentity b]

/-! ### Length errors, open messages, and a final group sent as DEC (R79, R98, R99) -/

/-- Settles O51: with and without an error pending, the length is judged first. -/
theorem lengthErrorComesFirst : Obligations.LengthErrorComesFirst := by
  unfold Obligations.LengthErrorComesFirst
  intro t e hlen
  refine ⟨?_, decErrAfter_decFrame t e⟩
  cases e with
  | false => rw [hostDecode_decFrame, decodeMsg_of_length_error hlen]
  | true => rw [hostDecode_decFrame_of_pending, symbolErrorOf, if_neg hlen]

/-- Settles O52: a pending error decides the conclusion, and `DECF 0`, the frame of the empty message, clears it. -/
theorem abandonedMessage : Obligations.AbandonedMessage := by
  unfold Obligations.AbandonedMessage
  refine fun t => ⟨fun hlen => ?_, fun e => ?_⟩
  · rw [hostDecode_decFrame_of_pending, symbolErrorOf, if_pos hlen]
  · have hclosed : decErrAfter [encode (asmDecf [])] e = false := decErrAfter_decFrame [] e
    rw [hclosed, hostDecode_decFrame]

/-- A bad group without pads is no valid final group either. -/
theorem padValid_of_badGroup {c0 c1 c2 c3 : Byte} (h : BadGroup c0 c1 c2 c3) (hpad : 0x3D#8 ∉ [c0, c1, c2, c3]) :
    padValid (classify c0) (classify c1) (classify c2) (classify c3) = none := by
  by_contra hvalid
  obtain ⟨p, hp⟩ := Option.ne_none_iff_exists'.mp hvalid
  obtain ⟨i0, i1, h0, h1, ⟨i2, i3, h2, h3, -⟩ | ⟨i2, -, h3, -⟩ | ⟨-, h3, -⟩⟩ := padValid_cases hp
  · exact absurd h (by simp [BadGroup, h0, h1, h2, h3])
  · exact hpad (by simp [eq_pad_of_classify c3 h3])
  · exact hpad (by simp [eq_pad_of_classify c3 h3])

theorem pad_ne_of_sym {c : Byte} {i : Sextet} (h : classify c = .sym i) : 0x3D#8 ≠ c := by
  rintro rfl
  contradiction

/-- Settles O53: a pad makes the group bad, which `DECF 0` reports; without pads both ways judge the group alike. -/
theorem finalGroupBelongsInDecf : Obligations.FinalGroupBelongsInDecf := by
  unfold Obligations.FinalGroupBelongsInDecf
  intro c0 c1 c2 c3
  dsimp only
  rw [hostDecode_asmDecf (t := [c0, c1, c2, c3]) le_rfl]
  rcases syms_or_badGroup c0 c1 c2 c3 with ⟨i0, i1, i2, i3, h0, h1, h2, h3⟩ | hbad
  · have hdec := hostDecode_asmDec_of_syms rfl h0 h1 h2 h3 (hostDecode_asmDecf (t := []) (Nat.zero_le 4))
    rw [hdec, decodeMsg_final_of_valid h0 h1 h2 h3 rfl]
    have hpad : 0x3D#8 ∉ [c0, c1, c2, c3] := by
      simp [pad_ne_of_sym h0, pad_ne_of_sym h1, pad_ne_of_sym h2, pad_ne_of_sym h3]
    exact ⟨fun h => absurd h hpad, fun _ => rfl⟩
  · have hclose := hostDecode_asmDecf_of_pending (t := []) (Nat.zero_le 4)
    have hdec := hostDecode_asmDec_of_error (e := false) (.inr hbad) hclose
    rw [hdec]
    refine ⟨fun _ => rfl, fun hpad => ?_⟩
    rw [decodeMsg_final_of_invalid (padValid_of_badGroup hbad hpad)]
    rfl

end Sys2Proof.Machine

/-! PROOFS. The obligation of spec/40_encoder.md section 3 and spec/70_reset_and_hazards.md section 3 on interleaving
(R56, R100): among the commands of a decode message any others may stand. -/

namespace Sys2Proof.Machine

/-- The word of a well-formed DEC or DECF is a decoder command, by its row of the opcode table. -/
theorem isDecoderCmd_encode {i : Instr} (hwf : i.wellFormed = true) (hrow : Laws.TableRow.Statement i) :
    isDecoderCmd (encode i) = (Laws.rowLegal i && ((Laws.rowOp i).toNat == 4 || (Laws.rowOp i).toNat == 5)) := by
  obtain ⟨hop, hlegal⟩ := hrow hwf
  rw [isDecoderCmd, hlegal, hop]

/-- A word that is no decoder command decodes to neither DEC nor DECF. -/
theorem decode_not_decoder {w : CmdWord} (h : isDecoderCmd w = false) :
    (∀ c0 c1 c2 c3, decode w ≠ .dec c0 c1 c2 c3) ∧ ∀ n c0 c1 c2 c3, decode w ≠ .decf n c0 c1 c2 c3 := by
  rw [← encode_decode w] at h
  have hwf := decode_wellFormed w
  refine ⟨fun c0 c1 c2 c3 hd => ?_, fun n c0 c1 c2 c3 hd => ?_⟩
  · rw [hd] at h hwf
    exact absurd (isDecoderCmd_encode hwf (Laws.TableRow.dec c0 c1 c2 c3)) (by rw [h]; exact Bool.false_ne_true)
  · rw [hd] at h hwf
    exact absurd (isDecoderCmd_encode hwf (Laws.TableRow.decf n c0 c1 c2 c3)) (by rw [h]; exact Bool.false_ne_true)

/-- Any command but DEC and DECF answers the same whatever `dec_err`, and keeps `dec_err`. -/
theorem execWord_of_not_decoder {w : CmdWord} (h : isDecoderCmd w = false) (e : Bool) :
    execWord w e = { rsp := (execWord w false).rsp, decErr := e } := by
  obtain ⟨hdec, hdecf⟩ := decode_not_decoder h
  rw [execWord_eq_commandResult, execWord_eq_commandResult, commandResult_of_not_decoder hdec hdecf]

@[simp] theorem answers_cons (c : CmdWord) (cs : List CmdWord) (e : Bool) :
    answers (c :: cs) e = (execWord c e).rsp :: answers cs (execWord c e).decErr := rfl

/-- Without the other commands, the decoder commands have the same answers and leave the same `dec_err`. -/
theorem answers_filter_isDecoderCmd (cs : List CmdWord) (e : Bool) :
    (cs.zip (answers cs e)).filter (fun x => isDecoderCmd x.1) =
        (cs.filter isDecoderCmd).zip (answers (cs.filter isDecoderCmd) e) ∧
      decErrAfter cs e = decErrAfter (cs.filter isDecoderCmd) e := by
  induction cs generalizing e with
  | nil => exact ⟨rfl, rfl⟩
  | cons c cs ih =>
    obtain ⟨hanswers, herr⟩ := ih (execWord c e).decErr
    cases hc : isDecoderCmd c with
    | true => simp [hc, hanswers, herr]
    | false =>
      have hkept : (execWord c e).decErr = e := by rw [execWord_of_not_decoder hc]
      rw [hkept] at hanswers herr
      simp [hc, hkept, hanswers, herr]

theorem answer_of_not_decoder (cs : List CmdWord) (e : Bool) {x : CmdWord × Option RspWord}
    (hx : x ∈ cs.zip (answers cs e)) (h : isDecoderCmd x.1 = false) : x.2 = (execWord x.1 false).rsp := by
  induction cs generalizing e with
  | nil => contradiction
  | cons c cs ih =>
    rw [answers_cons, List.zip_cons_cons, List.mem_cons] at hx
    rcases hx with rfl | hx
    · rw [execWord_of_not_decoder h]
    · exact ih _ hx

/-- Settles O54, by induction on the stream: a command that is no DEC or DECF keeps `dec_err`, through which alone the
commands of a message see each other. -/
theorem otherCommandsInterleaveFreely : Obligations.OtherCommandsInterleaveFreely := by
  unfold Obligations.OtherCommandsInterleaveFreely
  exact ⟨answers_filter_isDecoderCmd, fun cs e x hx h => answer_of_not_decoder cs e hx h⟩

end Sys2Proof.Machine
